-- ==== Sys2Proof/Word.lean ====
section
/-! DEFINITION. The word types of the Base91s codec core (spec/00_scope.md R6): bytes and symbols,
32-bit commands and lengths, 64-bit operand and result words. -/

namespace Sys2Proof

/-- A byte, symbol or digit: 8 bits (R6, R8). -/
abbrev Byte := BitVec 8

/-- A command word, a length or a 32-bit register (R6, R70). -/
abbrev Word := BitVec 32

/-- A 64-bit register: OPA, RES0, and the value of a host register access (R6, R35, R36). -/
abbrev Dword := BitVec 64

end Sys2Proof
end

