-- ==== Sys2Proof/Syntax.lean ====
section
/-! DEFINITION. The sixteen commands of spec/30_encoding.md R76 (spec/opcode_table.json), as data. -/

namespace Sys2Proof

/-- The datapath tier T of a command (R72). -/
inductive Tier where
  /-- T = 0: the widest tier present. -/
  | auto
  /-- T = 1. -/
  | scalar
  /-- T = 2. -/
  | v64
  /-- T = 3. -/
  | v128
  /-- T = 4. -/
  | v256
  /-- T = 5. -/
  | v512
deriving DecidableEq, Repr

/-- The unit-size code U of ENCBLK and DECBLK (R74): how many 13-byte blocks one command takes. -/
inductive UnitSize where
  /-- U = 0: 13 bytes, 16 symbols. -/
  | one
  /-- U = 1: 26 bytes, 32 symbols. -/
  | two
  /-- U = 2: 52 bytes, 64 symbols. -/
  | four
deriving DecidableEq, Repr

/-- One constructor per row of spec/opcode_table.json. -/
inductive Instr where
  /-- Divide OPA[12:0] by 91 (R110). -/
  | div91
  /-- Encode OPA[12:0] to a symbol pair (R111). -/
  | encpair
  /-- Decode the two symbols of OPA[15:0] (R112). -/
  | decpair
  /-- Digit OPA[7:0] to symbol (R113). -/
  | digenc
  /-- Symbol OPA[7:0] to digit (R114). -/
  | digdec
  /-- Packed groups of OPA to lanes (R135). -/
  | split
  /-- Lanes of OPA to packed groups (R136). -/
  | merge
  /-- Block encoder (R145). -/
  | encblk (u : UnitSize) (t : Tier)
  /-- Block decoder (R146). -/
  | decblk (u : UnitSize) (t : Tier)
  /-- Encode a tail of `n` bytes, the field N (R165). -/
  | enctail (n : BitVec 4) (t : Tier)
  /-- Decode a tail of `m` text bytes, the field N (R166). -/
  | dectail (m : BitVec 4) (t : Tier)
  /-- Streaming encode, `final` being the flag F (R185). -/
  | encode (final : Bool) (t : Tier)
  /-- Streaming decode, `final` being the flag F (R186). -/
  | decode (final : Bool) (t : Tier)
  /-- Encoded length of OPA[31:0] (R187). -/
  | enclen
  /-- Decoded length of OPA[31:0] (R188). -/
  | declen
  /-- Validate the text at SRC_ADDR (R189). -/
  | validate
deriving DecidableEq, Repr

end Sys2Proof
end

