-- ==== Sys2Proof/WellFormed.lean ====
section
/-! DEFINITION. Which terms of `Instr` stand for a legal command word (spec/30_encoding.md R74, R78). Tiers and
unit sizes are legal by their types; the one field with illegal values left is N of ENCTAIL, at most 12. -/

namespace Sys2Proof

/-- The check of R78 that the types leave open: ENCTAIL has N at most 12 (DECTAIL takes every N). -/
def Instr.wellFormed : Instr → Bool
  | .enctail n _ => n.toNat ≤ 12
  | .div91 | .encpair | .decpair | .digenc | .digdec | .split | .merge => true
  | .encblk _ _ | .decblk _ _ | .dectail _ _ | .encode _ _ | .decode _ _ => true
  | .enclen | .declen | .validate => true

/-- A well-formed instruction: the terms that decoding can give. -/
abbrev Instr.WellFormed (i : Instr) : Prop := i.wellFormed = true

end Sys2Proof
end

