-- ==== Sys2Proof/Decode.lean ====
section
/-! DEFINITION. Decoding and encoding of the one 32-bit format CMD32 (spec/30_encoding.md R70 to R81). -/

namespace Sys2Proof

/-! ### The fields of a command word (R70) -/

/-- OP, bits 7:0. -/
def opField (w : Word) : BitVec 8 := w.extractLsb' 0 8

/-- T, bits 10:8. -/
def tierField (w : Word) : BitVec 3 := w.extractLsb' 8 3

/-- F, bit 11. -/
def finalField (w : Word) : Bool := w.getLsbD 11

/-- N, bits 15:12. -/
def nField (w : Word) : BitVec 4 := w.extractLsb' 12 4

/-- The reserved bits 31:16. -/
def reservedField (w : Word) : BitVec 16 := w.extractLsb' 16 16

/-! ### Codes of the fields -/

/-- The code of a tier in T (R72). -/
def tierCode : Tier → BitVec 3
  | .auto => 0
  | .scalar => 1
  | .v64 => 2
  | .v128 => 3
  | .v256 => 4
  | .v512 => 5

/-- The tier a code of T names; 6 and 7 are illegal (R72, R79). -/
def tierOfCode (c : BitVec 3) : Option Tier :=
  match c.toNat with
  | 0 => some .auto
  | 1 => some .scalar
  | 2 => some .v64
  | 3 => some .v128
  | 4 => some .v256
  | 5 => some .v512
  | _ => none

/-- The code of a unit size in N (R74). -/
def unitCode : UnitSize → BitVec 4
  | .one => 0
  | .two => 1
  | .four => 2

/-- The unit size a code of N names; 3 to 15 are illegal (R74, R79). -/
def unitOfCode (c : BitVec 4) : Option UnitSize :=
  match c.toNat with
  | 0 => some .one
  | 1 => some .two
  | 2 => some .four
  | _ => none

/-- Why a word is illegal (R79). The unit reports ILLEGAL_COMMAND whatever the reason; the reasons and their
order are the model's own (DESIGN CHOICE, log 15; safe: no result depends on them). -/
inductive Illegal where
  /-- A reserved bit 31:16 is set (R75). -/
  | reservedBits
  /-- T is 6 or 7 (R72). -/
  | tierCode
  /-- OP is not in the table of R76. -/
  | operation
  /-- A field that R78 requires to be zero is not. -/
  | fieldNotZero
  /-- N of ENCBLK or DECBLK is above 2 (R74). -/
  | unitSize
  /-- N of ENCTAIL is above 12 (R74). -/
  | tailLength
deriving DecidableEq, Repr

/-! ### The decode function (R81) -/

/-- A command whose T, F and N must all be zero (first row of R78). -/
def decodePlain (t : Tier) (f : Bool) (n : BitVec 4) (i : Instr) : Except Illegal Instr :=
  if t = .auto ∧ f = false ∧ n = 0 then .ok i else .error .fieldNotZero

/-- ENCBLK and DECBLK: F zero, N a unit-size code (R78). -/
def decodeUnitSize (t : Tier) (f : Bool) (n : BitVec 4) (mk : UnitSize → Tier → Instr) : Except Illegal Instr :=
  if f = true then .error .fieldNotZero
  else match unitOfCode n with
    | none => .error .unitSize
    | some u => .ok (mk u t)

/-- ENCTAIL and DECTAIL: F zero, N at most the given bound (R78). -/
def decodeTailLength (t : Tier) (f : Bool) (n : BitVec 4) (bound : Nat) (mk : BitVec 4 → Tier → Instr) :
    Except Illegal Instr :=
  if f = true then .error .fieldNotZero
  else if bound < n.toNat then .error .tailLength
  else .ok (mk n t)

/-- ENCODE and DECODE: N zero, F free (R78). -/
def decodeFinal (t : Tier) (f : Bool) (n : BitVec 4) (mk : Bool → Tier → Instr) : Except Illegal Instr :=
  if n = 0 then .ok (mk f t) else .error .fieldNotZero

/-- The operation of a word, by the OP values of R76, its T already read. -/
def decodeOp (op : BitVec 8) (t : Tier) (f : Bool) (n : BitVec 4) : Except Illegal Instr :=
  if op = 0x01 then decodePlain t f n .div91
  else if op = 0x02 then decodePlain t f n .encpair
  else if op = 0x03 then decodePlain t f n .decpair
  else if op = 0x04 then decodePlain t f n .digenc
  else if op = 0x05 then decodePlain t f n .digdec
  else if op = 0x08 then decodePlain t f n .split
  else if op = 0x09 then decodePlain t f n .merge
  else if op = 0x10 then decodeUnitSize t f n .encblk
  else if op = 0x11 then decodeUnitSize t f n .decblk
  else if op = 0x12 then decodeTailLength t f n 12 .enctail
  else if op = 0x13 then decodeTailLength t f n 15 .dectail
  else if op = 0x20 then decodeFinal t f n .encode
  else if op = 0x21 then decodeFinal t f n .decode
  else if op = 0x22 then decodePlain t f n .enclen
  else if op = 0x23 then decodePlain t f n .declen
  else if op = 0x24 then decodePlain t f n .validate
  else .error .operation

/-- Decode(w) of R81: total on all words, each giving one command or ILLEGAL with the model's reason. -/
def decode (w : Word) : Except Illegal Instr :=
  if reservedField w ≠ 0 then .error .reservedBits
  else match tierOfCode (tierField w) with
    | none => .error .tierCode
    | some t => decodeOp (opField w) t (finalField w) (nField w)

/-! ### The encoder -/

/-- A command word from its fields, N and F and T and OP from the top, bits 31:16 zero (R70, R75). -/
def packCommand (op : BitVec 8) (t : Tier) (f : Bool) (n : BitVec 4) : Word :=
  0#16 ++ n ++ BitVec.ofBool f ++ tierCode t ++ op

/-- The word of an instruction (R76, R82). -/
def encode : Instr → Word
  | .div91 => packCommand 0x01 .auto false 0
  | .encpair => packCommand 0x02 .auto false 0
  | .decpair => packCommand 0x03 .auto false 0
  | .digenc => packCommand 0x04 .auto false 0
  | .digdec => packCommand 0x05 .auto false 0
  | .split => packCommand 0x08 .auto false 0
  | .merge => packCommand 0x09 .auto false 0
  | .encblk u t => packCommand 0x10 t false (unitCode u)
  | .decblk u t => packCommand 0x11 t false (unitCode u)
  | .enctail n t => packCommand 0x12 t false n
  | .dectail m t => packCommand 0x13 t false m
  | .encode f t => packCommand 0x20 t f 0
  | .decode f t => packCommand 0x21 t f 0
  | .enclen => packCommand 0x22 .auto false 0
  | .declen => packCommand 0x23 .auto false 0
  | .validate => packCommand 0x24 .auto false 0

/-- What the decoder reads from a table word: a command is one 32-bit word written whole to CMD (R70), so the
`nbits` low bits of `w` are the word and the bits above them are zero. -/
def decodeTableWord (nbits w : Nat) : Option Instr :=
  match decode (BitVec.ofNat 32 (w % 2 ^ nbits)) with
  | .ok i => some i
  | .error _ => none

end Sys2Proof
end

