-- ==== Sys2Proof/Config.lean ====
section
/-! DEFINITION. What an implementation fixes (spec/00_scope.md R5) and the free values of the model
(spec/20_memory.md R65, spec/70_reset_and_hazards.md R242). -/

namespace Sys2Proof

/-- The implementation parameters of the unit, exactly those of R5. DESIGN CHOICE (log 2): the model takes
them as an argument by carrying them in `State.cfg`, which no step changes. Safe: every statement over all
states holds for every value of them. -/
structure Config where
  /-- ADDR_W: width in bits of a buffer address. -/
  addrW : Nat
  /-- MAX_ENC_LEN: largest encode input length accepted. -/
  maxEncLen : Nat
  /-- V64 is in TIERS_PRESENT. -/
  v64 : Bool
  /-- V128 is in TIERS_PRESENT. -/
  v128 : Bool
  /-- V256 is in TIERS_PRESENT. -/
  v256 : Bool
  /-- V512 is in TIERS_PRESENT. -/
  v512 : Bool
  /-- NUM_UNITS: number of units that share the buffer memory. -/
  numUnits : Nat
deriving DecidableEq, Repr

/-- The defaults of R5: ADDR_W 32, MAX_ENC_LEN 1744830463, all four vector tiers, one unit. -/
def Config.default : Config :=
  { addrW := 32, maxEncLen := 1744830463, v64 := true, v128 := true, v256 := true, v512 := true, numUnits := 1 }

/-- The legal values of the parameters (R5). -/
abbrev Config.Legal (c : Config) : Prop :=
  16 ≤ c.addrW ∧ c.addrW ≤ 64 ∧ c.maxEncLen ≤ 1744830463 ∧ 1 ≤ c.numUnits

/-- The free values: the bytes that R65 and R242 leave unspecified, `Config.freeByte k` being the k-th one
asked for (`State.fresh` counts them). DESIGN CHOICE (log 7): it has no body, so nothing can be proved of a
value of it. Safe: a statement about it holds for every value. -/
opaque Config.freeByte : Nat → Byte

end Sys2Proof
end

