-- ==== Sys2Proof/Machine/State.lean ====
section
/-! DEFINITION. The state of the machine: the register file of spec/10_state.md R20 and R42, the buffer memory of
spec/20_memory.md R50, the further units of spec/60_exceptions.md R224, and the moves of the host and of other
agents still to come (spec/70_reset_and_hazards.md R246). -/

namespace Sys2Proof.Machine

/-- The register file of one unit: the tuple of R42, less the memory. CAPS is computed from the configuration (R23). -/
structure Regs where
  /-- CMD, the last word written (R21). -/
  cmd : Word
  /-- STATUS.ERR, the code of the last executed command (R22, R211). -/
  err : BitVec 4
  /-- STATUS.FATAL, sticky (R22, R213). -/
  fatal : Bool
  /-- SRC_ADDR (R24). 64 bits hold every legal ADDR_W; the bits above ADDR_W are never set (log 4). -/
  srcAddr : Dword
  /-- SRC_LEN, read as signed (R25). -/
  srcLen : Word
  /-- DST_ADDR (R26), held as SRC_ADDR is (log 4). -/
  dstAddr : Dword
  /-- DST_CAP, read as signed (R27). -/
  dstCap : Word
  /-- OPA, the operand of the register-only commands (R28). -/
  opa : Dword
  /-- RES0, first result (R29). -/
  res0 : Dword
  /-- RES1, second result (R30). -/
  res1 : Word
  /-- CONSUMED (R31). -/
  consumed : Word
  /-- WRITTEN (R32). -/
  written : Word
  /-- REQUIRED (R33). -/
  required : Word
deriving DecidableEq, Repr

/-- Every register after reset (R20, R240): all zero. -/
def Regs.reset : Regs :=
  { cmd := 0, err := 0, fatal := false, srcAddr := 0, srcLen := 0, dstAddr := 0, dstCap := 0, opa := 0,
    res0 := 0, res1 := 0, consumed := 0, written := 0, required := 0 }

/-- The buffer memory: the bytes that differ from what an unlisted address reads as, addresses rising (R50). -/
abbrev Memory := List Host.Cell

/-- What another agent does to one byte of the buffer memory while a command runs (R65). -/
inductive Touch where
  /-- It reads the byte at `addr`. -/
  | read (addr : Nat)
  /-- It writes `b` at `addr`. -/
  | write (addr : Nat) (b : Byte)
deriving DecidableEq, Repr

/-- One interaction of the host, the platform or another agent with a unit or the memory (the rows of R246).
DESIGN CHOICE (log 1): the machine takes them from `State.pending`, one a step. -/
inductive HostMove where
  /-- HostWrite(index, v) on a unit (R35); index 0 is CMD and runs the command (R21). -/
  | regWrite (unit : Nat) (index : Fin 16) (v : Dword)
  /-- HostRead(index) on a unit (R36). -/
  | regRead (unit : Nat) (index : Fin 16)
  /-- The host reads `n` bytes of the buffer memory from `addr` (R50, R63). -/
  | memRead (addr n : Nat)
  /-- The host writes bytes to the buffer memory from `addr` (R50, R63). -/
  | memWrite (addr : Nat) (bytes : List Byte)
  /-- The platform resets a unit (R240). -/
  | reset (unit : Nat)
  /-- The platform resets a unit while the host's write of `w` to CMD is held (R242). -/
  | cmdReset (unit : Nat) (w : Word)
  /-- The host writes `w` to CMD, and other agents touch the memory while the command runs (R65, R224). -/
  | cmdContended (unit : Nat) (w : Word) (touches : List Touch)
deriving DecidableEq, Repr

/-- The whole machine. `cfg` is the configuration of R5 and no step changes it (log 2). -/
structure State where
  /-- The implementation parameters (R5). -/
  cfg : Config
  /-- The register file of the unit the last move addressed (R42). -/
  regs : Regs
  /-- The register files of the units with lower numbers, unit 0 first (R224, log 6). -/
  below : List Regs
  /-- The register files of the units with higher numbers, the next one first (R224, log 6). -/
  above : List Regs
  /-- The buffer memory that host and units share (R50). -/
  mem : Memory
  /-- MODEL'S OWN (log 1): the moves still to come, the next one first. -/
  pending : List HostMove
  /-- MODEL'S OWN (log 5): the values the last move gave back, in order (R36, R246). -/
  replies : List Dword
  /-- MODEL'S OWN (log 7): how many free bytes have been used. -/
  fresh : Nat
deriving DecidableEq, Repr

/-- Why the machine stops. No command stops it: every error of the spec is a status code (R210). -/
inductive Fault where
  /-- Raised by a move of the host or of another agent that reaches a byte outside 0 to 2^ADDR_W - 1, which
  does not exist (R50). Safe: the machine stops where no behaviour is given (log 11). -/
  | outsideBufferMemory (addr : Nat)
  /-- Raised by a move that names a unit which is not built, its number at least NUM_UNITS (R5, R224). Safe: the
  machine stops where no behaviour is given (log 12). -/
  | noSuchUnit (unit : Nat)
deriving DecidableEq, Repr

/-- Why an instruction has no meaning. -/
inductive Refusal where
  /-- Raised by an arm of `exec` for an instruction not modelled yet; no arm does. Safe: nothing is concluded. -/
  | notModelled (mnemonic : String)
deriving DecidableEq, Repr

/-- The machine right after reset (R240, R241): every register at its reset value, the parameters at their
defaults (R5), so one unit, nothing listed in memory, and no move pending. DESIGN CHOICE for the model's own
fields and for the memory, which reset leaves to the host (logs 1, 3, 5, 7). -/
def State.reset : State :=
  { cfg := Config.default, regs := Regs.reset, below := [], above := [], mem := [], pending := [], replies := [],
    fresh := 0 }

end Sys2Proof.Machine
end

