-- ==== Sys2Proof/Machine/Flags.lean ====
section
/-! DEFINITION. STATUS and CAPS: the error codes (spec/60_exceptions.md R211), the two flags and the constant
capability word (spec/10_state.md R22, R23, R38). No arithmetic flag exists (R38). -/

namespace Sys2Proof.Machine

/-- The error codes of R211, in the order of their numbers. -/
inductive ErrCode where
  /-- 0: no error. -/
  | ok
  /-- 1: DST_CAP below the computed output length. -/
  | destTooShort
  /-- 2: text length modulo 16 is 1, 6 or 11. -/
  | invalidLength
  /-- 3: encode length above MAX_ENC_LEN. -/
  | lengthExceedsMax
  /-- 4: a length operand is negative. -/
  | negativeLength
  /-- 5: T names a tier that is not present; fatal. -/
  | unsupportedOperation
  /-- 6: the word is illegal. -/
  | illegalCommand
  /-- 7: a region passes the top of the address space. -/
  | range
  /-- 8: the source and destination regions share a byte. -/
  | overlap
deriving DecidableEq, Repr

/-- The number of an error code in STATUS.ERR (R211). -/
def errNumber : ErrCode → BitVec 4
  | .ok => 0
  | .destTooShort => 1
  | .invalidLength => 2
  | .lengthExceedsMax => 3
  | .negativeLength => 4
  | .unsupportedOperation => 5
  | .illegalCommand => 6
  | .range => 7
  | .overlap => 8

/-- STATUS as the host reads it: ERR in bits 3:0, FATAL in bit 8, every other bit zero (R22). -/
def statusWord (r : Regs) : Word :=
  0#23 ++ BitVec.ofBool r.fatal ++ 0#4 ++ r.err

/-- CAPS: bit 0 always 1, bits 1 to 4 the vector tiers present, the rest zero (R23). -/
def capsWord (c : Config) : Word :=
  0#27 ++ BitVec.ofBool c.v512 ++ BitVec.ofBool c.v256 ++ BitVec.ofBool c.v128 ++ BitVec.ofBool c.v64 ++ 1#1

/-- TierPresent of R84: AUTO and SCALAR always, a vector tier when TIERS_PRESENT has it. -/
def tierPresent (c : Config) : Tier → Bool
  | .auto => true
  | .scalar => true
  | .v64 => c.v64
  | .v128 => c.v128
  | .v256 => c.v256
  | .v512 => c.v512

end Sys2Proof.Machine
end

