-- ==== Sys2Proof/Machine/Ops.lean ====
section
/-! DEFINITION. The named operations over memory and registers: the buffer memory (spec/20_memory.md), the host's
register accesses (spec/10_state.md R35, R36), ending a command with or without an error
(spec/60_exceptions.md R214 to R216, the machine's way of taking an exception) and the checks every command
starts with (spec/30_encoding.md R84). -/

namespace Sys2Proof.Machine

/-! ### Byte lists (R8) -/

/-- LE(bs): the little-endian number of a byte list. -/
def le : List Byte → Nat
  | [] => 0
  | b :: bs => b.toNat + 256 * le bs

/-- LEbytes(v, n): the n-byte list whose little-endian number is v mod 2^(8n). -/
def leBytes (v : Nat) : Nat → List Byte
  | 0 => []
  | n + 1 => BitVec.ofNat 8 v :: leBytes (v / 256) n

/-- The field v[hi:lo] of an unbounded number (R7). -/
def slice (v hi lo : Nat) : Nat := (v >>> lo) % 2 ^ (hi + 1 - lo)

/-! ### The buffer memory (R50, R51) -/

/-- What an address that is not listed reads as. DESIGN CHOICE (log 3): 0x00, as the programs of
spec/95_test_vectors.md start. Unsafe: the spec gives the memory no contents. -/
def unlistedByte : Byte := 0x00

/-- The canonical form: addresses strictly rising, no listed byte equal to what an unlisted address reads as. -/
abbrev Memory.wf (m : Memory) : Prop :=
  m.Pairwise (fun x y => x.1 < y.1) ∧ ∀ c ∈ m, c.2 ≠ unlistedByte

/-- M[a]. -/
def memByte : Memory → Nat → Byte
  | [], _ => unlistedByte
  | (x, b) :: m, a => if a = x then b else memByte m a

/-- M[a] <- b, keeping the canonical form. -/
def memSetByte : Memory → Nat → Byte → Memory
  | [], a, b => if b = unlistedByte then [] else [(a, b)]
  | (x, c) :: m, a, b =>
    if a < x then (if b = unlistedByte then (x, c) :: m else (a, b) :: (x, c) :: m)
    else if a = x then (if b = unlistedByte then m else (a, b) :: m)
    else (x, c) :: memSetByte m a b

/-- MemRead(addr, n) (R51): the n bytes from addr. -/
def memRead (m : Memory) (addr : Nat) : Nat → List Byte
  | 0 => []
  | n + 1 => memByte m addr :: memRead m (addr + 1) n

/-- MemWrite(addr, n, bs) (R51), n being the length of bs. -/
def memWrite (m : Memory) (addr : Nat) : List Byte → Memory
  | [] => m
  | b :: bs => memWrite (memSetByte m addr b) (addr + 1) bs

/-- How many bytes the address space has: 2^ADDR_W (R50). -/
def spaceSize (c : Config) : Nat := 2 ^ c.addrW

/-- CheckRegions of R69: RANGE of the read region, RANGE of the write region, then OVERLAP. -/
def checkRegions (c : Config) (srcAddr readLen dstAddr writeLen : Nat) : Option ErrCode :=
  if spaceSize c < srcAddr + readLen then some .range
  else if spaceSize c < dstAddr + writeLen then some .range
  else if 0 < readLen ∧ 0 < writeLen ∧ srcAddr < dstAddr + writeLen ∧ dstAddr < srcAddr + readLen then some .overlap
  else none

/-! ### The host's register accesses -/

/-- An address reduced to ADDR_W bits (R24, R26). -/
def truncAddr (c : Config) (v : Dword) : Dword := BitVec.ofNat 64 (v.toNat % spaceSize c)

/-- HostWrite(i, v) on the registers (R35): the operand registers and the word in CMD take the value reduced to
their width; read-only and reserved indices ignore it. What a write to CMD then runs is `executeWord`. -/
def regWrite (c : Config) (r : Regs) (i : Fin 16) (v : Dword) : Regs :=
  match i.val with
  | 0 => { r with cmd := v.setWidth 32 }
  | 3 => { r with srcAddr := truncAddr c v }
  | 4 => { r with srcLen := v.setWidth 32 }
  | 5 => { r with dstAddr := truncAddr c v }
  | 6 => { r with dstCap := v.setWidth 32 }
  | 7 => { r with opa := v }
  | _ => r

/-- HostRead(i) (R36): the register zero-extended to 64 bits, 0 for a reserved index. -/
def regRead (c : Config) (r : Regs) (i : Fin 16) : Dword :=
  match i.val with
  | 0 => r.cmd.setWidth 64
  | 1 => (statusWord r).setWidth 64
  | 2 => (capsWord c).setWidth 64
  | 3 => r.srcAddr
  | 4 => r.srcLen.setWidth 64
  | 5 => r.dstAddr
  | 6 => r.dstCap.setWidth 64
  | 7 => r.opa
  | 8 => r.res0
  | 9 => r.res1.setWidth 64
  | 10 => r.consumed.setWidth 64
  | 11 => r.written.setWidth 64
  | 12 => r.required.setWidth 64
  | _ => 0

/-! ### Ending a command (R214 to R216) -/

/-- `raise E(req)` of R215: the command ends with error code E and an otherwise zero result bank, but for the
required length. This is how the machine takes an exception: nothing is saved and control goes nowhere (R221). -/
def raise (e : ErrCode) (req : Nat) (s : State) : State :=
  { s with
    regs := { s.regs with
      err := errNumber e, res0 := 0, res1 := 0, consumed := 0, written := 0, required := BitVec.ofNat 32 req } }

/-- UNSUPPORTED_OPERATION is fatal (R213): FATAL is set, then the error is raised. -/
def raiseFatal (s : State) : State :=
  raise .unsupportedOperation 0 { s with regs := { s.regs with fatal := true } }

/-- `Complete(res0, res1, consumed, written, required)` of R216, each value reduced to its register's width (R9). -/
def complete (res0 res1 consumed written required : Nat) (s : State) : State :=
  { s with
    regs := { s.regs with
      err := errNumber .ok, res0 := BitVec.ofNat 64 res0, res1 := BitVec.ofNat 32 res1,
      consumed := BitVec.ofNat 32 consumed, written := BitVec.ofNat 32 written,
      required := BitVec.ofNat 32 required } }

/-- What Execute(w) does around a command's own rule (R84, R217): ignored while FATAL, else ILLEGAL_COMMAND for an
illegal word, else UNSUPPORTED_OPERATION for an absent tier, else the rule itself. DEDUCED (log 13): FATAL is
checked here, after decoding, where R84 checks it before; decoding reads no state, so no result differs. -/
def guarded (legal : Bool) (t : Tier) (rule : State → State) (s : State) : State :=
  if s.regs.fatal = true then s
  else if legal = false then raise .illegalCommand 0 s
  else if tierPresent s.cfg t = false then raiseFatal s
  else rule s

/-- The common end of the six writing commands, from the capacity check on (R145, R146, R165, R166, R185, R186):
DEST_TOO_SHORT, then CheckRegions, then `readLen` bytes are read, transformed and written, `writeLen` of them. -/
def transfer (readLen writeLen : Nat) (f : List Byte → List Byte) (s : State) : State :=
  if s.regs.dstCap.toInt < writeLen then raise .destTooShort writeLen s
  else match checkRegions s.cfg s.regs.srcAddr.toNat readLen s.regs.dstAddr.toNat writeLen with
    | some e => raise e 0 s
    | none =>
      complete 0 0 readLen writeLen writeLen
        { s with mem := memWrite s.mem s.regs.dstAddr.toNat (f (memRead s.mem s.regs.srcAddr.toNat readLen)) }

/-! ### Several units (R224) -/

/-- The register files of all units, unit 0 first. -/
def unitFiles (s : State) : List Regs := s.below ++ s.regs :: s.above

/-- The number of the unit that `regs` belongs to. -/
def currentUnit (s : State) : Nat := s.below.length

/-- The same machine with unit `u` addressed, or nothing when unit `u` is not built (log 6, log 12). -/
def focusUnit (u : Nat) (s : State) : Option State :=
  match (unitFiles s).drop u with
  | [] => none
  | r :: rest => some { s with below := (unitFiles s).take u, regs := r, above := rest }

/-! ### Free bytes (R65, R242) -/

/-- The next `n` free bytes, from number `k` on. -/
def freeBytes (k : Nat) : Nat → List Byte
  | 0 => []
  | n + 1 => Config.freeByte k :: freeBytes (k + 1) n

/-- `n` bytes from `addr` take unspecified values. -/
def scramble (addr n : Nat) (s : State) : State :=
  { s with mem := memWrite s.mem addr (freeBytes s.fresh n), fresh := s.fresh + n }

end Sys2Proof.Machine
end

