-- ==== Sys2Proof/Machine/Operands.lean ====
section
/-! DEFINITION. Operand assembly (spec/30_encoding.md R76, R77; spec/10_state.md R25, R27, R28): which register bits
a command reads and how it reads them. Bits a command does not name are ignored. -/

namespace Sys2Proof.Machine

/-- OPA[12:0], the value of DIV91 and ENCPAIR. -/
def opa13 (s : State) : Nat := slice s.regs.opa.toNat 12 0

/-- OPA[7:0]: the digit of DIGENC, the symbol of DIGDEC, the first symbol of DECPAIR. -/
def opaLow (s : State) : Byte := s.regs.opa.extractLsb' 0 8

/-- OPA[15:8]: the second symbol of DECPAIR. -/
def opaHigh (s : State) : Byte := s.regs.opa.extractLsb' 8 8

/-- OPA[63:0], the word of SPLIT and MERGE. -/
def opaWord (s : State) : Nat := s.regs.opa.toNat

/-- OPA[31:0] read as `sext_32`, the length of ENCLEN and DECLEN. -/
def opaLength (s : State) : Int := (s.regs.opa.extractLsb' 0 32).toInt

/-- SRC_LEN read as `sext_32` (R25). -/
def srcLength (s : State) : Int := s.regs.srcLen.toInt

/-- DST_CAP read as `sext_32` (R27). -/
def dstCapacity (s : State) : Int := s.regs.dstCap.toInt

/-- The number of blocks in a unit, `1 << U` (R143). -/
def unitBlocks : UnitSize → Nat
  | .one => 1
  | .two => 2
  | .four => 4

end Sys2Proof.Machine
end

