-- ==== Sys2Proof/Machine/DigitCodec.lean ====
section
/-! DEFINITION. Alphabet, digit codec and division-by-91 unit (spec/40_digit_codec.md): the functions R100 to R107
and the five register-only commands R110 to R114. -/

namespace Sys2Proof.Machine

/-! ### Functions -/

/-- Div91(v) of R100: quotient and remainder by the fixed-point constant 2881. -/
def div91 (v : Nat) : Nat × Nat :=
  let q := (v * 2881) >>> 18
  (q, v - 91 * q)

/-- Sym(d) of R102: digit to symbol, 0x5C replaced by 0x7E. -/
def sym (d : Byte) : Byte :=
  let s := d + 0x23
  if s = 0x5C then 0x7E else s

/-- Dig(b) of R103: symbol to digit, 91 replaced by 57. -/
def dig (b : Byte) : Byte :=
  let d := b - 0x23
  if d = 91 then 57 else d

/-- InAlpha(b) of R104: the 91 bytes of the alphabet. -/
def inAlpha (b : Byte) : Bool :=
  (0x23 ≤ b.toNat && b.toNat ≤ 0x7D && b.toNat != 0x5C) || b.toNat == 0x7E

/-- The remainder symbol of a 13-bit value, the first of its pair (R106). -/
def remSym (v : Nat) : Byte := sym (BitVec.ofNat 8 (div91 v).2)

/-- The quotient symbol of a 13-bit value, the second of its pair (R106). -/
def quoSym (v : Nat) : Byte := sym (BitVec.ofNat 8 (div91 v).1)

/-- EncPair(v) of R106: remainder symbol first. -/
def encPair (v : Nat) : List Byte := [remSym v, quoSym v]

/-- PairWord(v) of R106: the pair as a 16-bit word. -/
def pairWord (v : Nat) : Nat := (remSym v).toNat ||| ((quoSym v).toNat <<< 8)

/-- DecPair(b0, b1) of R107: the 13-bit group value and the 16-bit lane value. -/
def decPair (b0 b1 : Byte) : Nat × Nat :=
  let v16 := ((dig b0).toNat + 91 * (dig b1).toNat) % 2 ^ 16
  (slice v16 12 0, v16)

/-! ### Commands -/

/-- DIV91 (R110). -/
def execDiv91 (s : State) : Host.Outcome State Fault Refusal :=
  .next (guarded true .auto (fun s => complete (div91 (opa13 s)).1 (div91 (opa13 s)).2 0 0 0 s) s)

/-- ENCPAIR (R111). -/
def execEncpair (s : State) : Host.Outcome State Fault Refusal :=
  .next (guarded true .auto (fun s => complete (pairWord (opa13 s)) 0 0 0 0 s) s)

/-- DECPAIR (R112): content is not validated. -/
def execDecpair (s : State) : Host.Outcome State Fault Refusal :=
  .next (guarded true .auto
    (fun s => complete (decPair (opaLow s) (opaHigh s)).1 (decPair (opaLow s) (opaHigh s)).2 0 0 0 s) s)

/-- DIGENC (R113). -/
def execDigenc (s : State) : Host.Outcome State Fault Refusal :=
  .next (guarded true .auto (fun s => complete (sym (opaLow s)).toNat 0 0 0 0 s) s)

/-- DIGDEC (R114). -/
def execDigdec (s : State) : Host.Outcome State Fault Refusal :=
  .next (guarded true .auto (fun s => complete (dig (opaLow s)).toNat 0 0 0 0 s) s)

end Sys2Proof.Machine
end

