-- ==== Sys2Proof/Machine/LanePack.lean ====
section
/-! DEFINITION. Bit-lane packer and unpacker (spec/41_lane_pack.md): Split and Merge (R130, R131), the parallel
deposit and extract the source names for them (R132), and the commands R135 and R136. -/

namespace Sys2Proof.Machine

/-! ### Functions -/

/-- Split(w) of R130: group i, bits 13i+12 to 13i, goes to lane i, at bit 16i. -/
def split (w : Nat) : Nat :=
  slice w 12 0 + (slice w 25 13 <<< 16) + (slice w 38 26 <<< 32) + (slice w 51 39 <<< 48)

/-- Merge(w) of R131: bits 12:0 of lane i go to group i, at bit 13i; lane bits 15:13 are discarded. -/
def merge (w : Nat) : Nat :=
  slice w 12 0 + (slice w 28 16 <<< 13) + (slice w 44 32 <<< 26) + (slice w 60 48 <<< 39)

/-- The mask of R132: 13 ones in every 16 bits. -/
def laneMask : Nat := 0x1FFF1FFF1FFF1FFF

/-- Parallel bit deposit over the `n` low mask bits: the low bits of `w` go, in order, to the set bits of the mask
(R132). PRESUMED (log 16): the spec takes this meaning from general knowledge. Safe: no command uses it. -/
def depositBits : Nat → Nat → Nat → Nat
  | 0, _, _ => 0
  | n + 1, w, mask =>
    if mask % 2 = 1 then w % 2 + 2 * depositBits n (w / 2) (mask / 2) else 2 * depositBits n w (mask / 2)

/-- Parallel bit extract over the `n` low mask bits: the bits of `w` at the set bits of the mask are gathered, in
order, into the low bits (R132). PRESUMED (log 16). Safe: no command uses it. -/
def extractBits : Nat → Nat → Nat → Nat
  | 0, _, _ => 0
  | n + 1, w, mask =>
    if mask % 2 = 1 then w % 2 + 2 * extractBits n (w / 2) (mask / 2) else extractBits n (w / 2) (mask / 2)

/-! ### Commands -/

/-- SPLIT (R135). -/
def execSplit (s : State) : Host.Outcome State Fault Refusal :=
  .next (guarded true .auto (fun s => complete (split (opaWord s)) 0 0 0 0 s) s)

/-- MERGE (R136). -/
def execMerge (s : State) : Host.Outcome State Fault Refusal :=
  .next (guarded true .auto (fun s => complete (merge (opaWord s)) 0 0 0 0 s) s)

end Sys2Proof.Machine
end

