-- ==== Sys2Proof/Machine/BlockCodec.lean ====
section
/-! DEFINITION. Block encoder and decoder (spec/42_block_codec.md): R140 to R143 and the commands R145 and R146. -/

namespace Sys2Proof.Machine

/-! ### Functions -/

/-- Group i of a 13-byte block, bits 13i+12 to 13i of its little-endian number (R52, R140). -/
def group (bs : List Byte) (i : Nat) : Nat := slice (le bs) (13 * i + 12) (13 * i)

/-- EncBlock13(bs) of R140: the pairs of the eight groups, in order. -/
def encBlock13 (bs : List Byte) : List Byte := (List.range 8).flatMap fun i => encPair (group bs i)

/-- The 13-bit value of pair i of a text block (R142). -/
def pairValue (ss : List Byte) (i : Nat) : Nat := (decPair (ss.getD (2 * i) 0) (ss.getD (2 * i + 1) 0)).1

/-- DecBlock16(ss) of R142: the eight pair values packed at 13-bit stride, as 13 bytes. -/
def decBlock16 (ss : List Byte) : List Byte :=
  leBytes ((List.range 8).foldl (fun w i => w ||| (pairValue ss i <<< (13 * i))) 0) 13

/-- The encoder over `k` whole blocks of 13 bytes, in order (R143, R183). -/
def encBlocks : Nat → List Byte → List Byte
  | 0, _ => []
  | k + 1, bs => encBlock13 (bs.take 13) ++ encBlocks k (bs.drop 13)

/-- The decoder over `k` whole text blocks of 16 bytes, in order (R143, R184). -/
def decBlocks : Nat → List Byte → List Byte
  | 0, _ => []
  | k + 1, ss => decBlock16 (ss.take 16) ++ decBlocks k (ss.drop 16)

/-- EncUnit(U, bs) of R143. -/
def encUnit (u : UnitSize) (bs : List Byte) : List Byte := encBlocks (unitBlocks u) bs

/-- DecUnit(U, ss) of R143. -/
def decUnit (u : UnitSize) (ss : List Byte) : List Byte := decBlocks (unitBlocks u) ss

/-- The eight lanes of the source's two-word form (R141): Split of the word at byte 0, then Split of the word at
byte 5 shifted right by 12. -/
def twoWordLane (bs : List Byte) (i : Nat) : Nat :=
  let w0 := le (bs.take 8)
  let w1 := le ((bs.drop 5).take 8) >>> 12
  if i < 4 then slice (split w0) (16 * i + 15) (16 * i) else slice (split w1) (16 * (i - 4) + 15) (16 * (i - 4))

/-! ### Commands -/

/-- ENCBLK (R145). No result depends on the tier (R144). -/
def execEncblk (u : UnitSize) (t : Tier) (s : State) : Host.Outcome State Fault Refusal :=
  .next (guarded true t
    (fun s =>
      if dstCapacity s < 0 then raise .negativeLength 0 s
      else transfer (13 * unitBlocks u) (16 * unitBlocks u) (encUnit u) s) s)

/-- DECBLK (R146). Content is not validated. -/
def execDecblk (u : UnitSize) (t : Tier) (s : State) : Host.Outcome State Fault Refusal :=
  .next (guarded true t
    (fun s =>
      if dstCapacity s < 0 then raise .negativeLength 0 s
      else transfer (16 * unitBlocks u) (13 * unitBlocks u) (decUnit u) s) s)

end Sys2Proof.Machine
end

