-- ==== Sys2Proof/Machine/Remainder.lean ====
section
/-! DEFINITION. Remainder handler (spec/43_remainder.md): the length tables R160 and R161, EncTail and DecTail
(R163, R164) and the commands R165 and R166. -/

namespace Sys2Proof.Machine

/-! ### Tables -/

/-- ENC_T[n] of R160, for n from 0 to 12; 0 above (log 19). -/
def encT (n : Nat) : Nat := [0, 2, 3, 4, 5, 7, 8, 9, 10, 12, 13, 14, 15].getD n 0

/-- DEC_T[m] of R161, for m from 0 to 15: nothing for the invalid lengths 1, 6 and 11, nor above 15 (log 19). -/
def decT (m : Nat) : Option Nat :=
  [some 0, none, some 1, some 2, some 3, some 4, none, some 5, some 6, some 7, some 8, none, some 9, some 10,
    some 11, some 12].getD m none

/-! ### Functions -/

/-- EncTail(bs) of R163: the first ENC_T[n] symbols of the zero-padded block. -/
def encTail (bs : List Byte) : List Byte :=
  (encBlock13 (bs ++ List.replicate (13 - bs.length) 0x00)).take (encT bs.length)

/-- DecTail(ss) of R164: the first DEC_T[m] bytes of the text block padded with the symbol of digit 0. Nothing for
an invalid length, on which no command calls it (log 19). -/
def decTail (ss : List Byte) : List Byte :=
  (decBlock16 (ss ++ List.replicate (16 - ss.length) 0x23)).take ((decT ss.length).getD 0)

/-! ### Commands -/

/-- ENCTAIL (R165). A term with `n` above 12 stands for an illegal word (R79) and takes ILLEGAL_COMMAND; decoding
never gives one (log 15). -/
def execEnctail (n : BitVec 4) (t : Tier) (s : State) : Host.Outcome State Fault Refusal :=
  .next (guarded (n.toNat ≤ 12) t
    (fun s =>
      if dstCapacity s < 0 then raise .negativeLength 0 s
      else transfer n.toNat (encT n.toNat) encTail s) s)

/-- DECTAIL (R166): INVALID_LENGTH for 1, 6 and 11, before the capacity check. -/
def execDectail (m : BitVec 4) (t : Tier) (s : State) : Host.Outcome State Fault Refusal :=
  .next (guarded true t
    (fun s =>
      if dstCapacity s < 0 then raise .negativeLength 0 s
      else match decT m.toNat with
        | none => raise .invalidLength 0 s
        | some outLen => transfer m.toNat outLen decTail s) s)

end Sys2Proof.Machine
end

