-- ==== Sys2Proof/Machine/Streaming.lean ====
section
/-! DEFINITION. Streaming driver, length queries and validator (spec/44_streaming.md): R180 to R184 and the commands
R185 to R189. -/

namespace Sys2Proof.Machine

/-! ### Length arithmetic -/

/-- EncLen(n) of R180. -/
def encLen (n : Nat) : Nat := 16 * (n / 13) + encT (n % 13)

/-- DecLen(t) of R181: nothing when t mod 16 is 1, 6 or 11. -/
def decLen (t : Nat) : Option Nat := (decT (t % 16)).map fun d => 13 * (t / 16) + d

/-! ### Functions -/

/-- EncodeStream(bs, final) of R183. -/
def encodeStream (final : Bool) (bs : List Byte) : List Byte :=
  encBlocks (bs.length / 13) bs ++ if final = true then encTail (bs.drop (13 * (bs.length / 13))) else []

/-- DecodeStream(ss, final) of R184. -/
def decodeStream (final : Bool) (ss : List Byte) : List Byte :=
  decBlocks (ss.length / 16) ss ++ if final = true then decTail (ss.drop (16 * (ss.length / 16))) else []

/-- The test of VALIDATE (R189): a legal length, and every byte in the alphabet (R104). -/
def validText (ss : List Byte) : Bool := (decLen ss.length).isSome && ss.all inAlpha

/-! ### Commands -/

/-- ENCODE (R185): LENGTH_EXCEEDS_MAX on final and non-final calls alike. -/
def execEncode (final : Bool) (t : Tier) (s : State) : Host.Outcome State Fault Refusal :=
  .next (guarded true t
    (fun s =>
      if srcLength s < 0 ∨ dstCapacity s < 0 then raise .negativeLength 0 s
      else if (s.cfg.maxEncLen : Int) < srcLength s then raise .lengthExceedsMax 0 s
      else
        let n := (srcLength s).toNat
        if final = true then transfer n (encLen n) (encodeStream true) s
        else transfer (13 * (n / 13)) (16 * (n / 13)) (encodeStream false) s) s)

/-- DECODE (R186): INVALID_LENGTH on a final call only. Content is not validated. -/
def execDecode (final : Bool) (t : Tier) (s : State) : Host.Outcome State Fault Refusal :=
  .next (guarded true t
    (fun s =>
      if srcLength s < 0 ∨ dstCapacity s < 0 then raise .negativeLength 0 s
      else
        let n := (srcLength s).toNat
        if final = true then
          match decLen n with
          | none => raise .invalidLength 0 s
          | some need => transfer n need (decodeStream true) s
        else transfer (16 * (n / 16)) (13 * (n / 16)) (decodeStream false) s) s)

/-- ENCLEN (R187). -/
def execEnclen (s : State) : Host.Outcome State Fault Refusal :=
  .next (guarded true .auto
    (fun s =>
      if opaLength s < 0 then raise .negativeLength 0 s
      else if (s.cfg.maxEncLen : Int) < opaLength s then raise .lengthExceedsMax 0 s
      else complete (encLen (opaLength s).toNat) 0 0 0 0 s) s)

/-- DECLEN (R188). -/
def execDeclen (s : State) : Host.Outcome State Fault Refusal :=
  .next (guarded true .auto
    (fun s =>
      if opaLength s < 0 then raise .negativeLength 0 s
      else match decLen (opaLength s).toNat with
        | none => raise .invalidLength 0 s
        | some d => complete d 0 0 0 0 s) s)

/-- VALIDATE (R189): an invalid text is no error; nothing is written. -/
def execValidate (s : State) : Host.Outcome State Fault Refusal :=
  .next (guarded true .auto
    (fun s =>
      if srcLength s < 0 then raise .negativeLength 0 s
      else
        match checkRegions s.cfg s.regs.srcAddr.toNat (srcLength s).toNat 0 0 with
        | some e => raise e 0 s
        | none =>
          complete (if validText (memRead s.mem s.regs.srcAddr.toNat (srcLength s).toNat) = true then 1 else 0)
            0 0 0 0 s) s)

end Sys2Proof.Machine
end

