-- ==== Sys2Proof/Machine/Dispatch.lean ====
section
/-! DEFINITION. The dispatch of a decoded command to its meaning (spec/30_encoding.md R76, R84). -/

namespace Sys2Proof.Machine

-- One arm per row of spec/opcode_table.json.
def exec (i : Instr) (s : State) : Host.Outcome State Fault Refusal :=
  match i with
  | .div91 => Sys2Proof.Machine.execDiv91 s
  | .encpair => Sys2Proof.Machine.execEncpair s
  | .decpair => Sys2Proof.Machine.execDecpair s
  | .digenc => Sys2Proof.Machine.execDigenc s
  | .digdec => Sys2Proof.Machine.execDigdec s
  | .split => Sys2Proof.Machine.execSplit s
  | .merge => Sys2Proof.Machine.execMerge s
  | .encblk u t => Sys2Proof.Machine.execEncblk u t s
  | .decblk u t => Sys2Proof.Machine.execDecblk u t s
  | .enctail n t => Sys2Proof.Machine.execEnctail n t s
  | .dectail m t => Sys2Proof.Machine.execDectail m t s
  | .encode f t => Sys2Proof.Machine.execEncode f t s
  | .decode f t => Sys2Proof.Machine.execDecode f t s
  | .enclen => Sys2Proof.Machine.execEnclen s
  | .declen => Sys2Proof.Machine.execDeclen s
  | .validate => Sys2Proof.Machine.execValidate s

end Sys2Proof.Machine
end

