-- ==== Sys2Proof/Machine/HostMoves.lean ====
section
/-! DEFINITION. What each interaction of spec/70_reset_and_hazards.md R246 does: register accesses
(spec/10_state.md R21, R35, R36), the command step (spec/30_encoding.md R84), accesses to the buffer memory
(spec/20_memory.md R50, R63), reset (R240, R242) and a command whose regions another agent touches (R65). -/

namespace Sys2Proof.Machine

/-! ### The command step -/

/-- Execute(w) of R84, after `x[CMD] <- w` (R21). -/
def executeWord (w : Word) (s : State) : Host.Outcome State Fault Refusal :=
  match decode w with
  | .ok i => exec i { s with regs := { s.regs with cmd := w } }
  | .error _ => .next (guarded false .auto id { s with regs := { s.regs with cmd := w } })

/-! ### Accesses to the buffer memory by others than the unit -/

/-- The first address of `n` bytes from `addr` that is outside the address space, if one is (R50). -/
def outsideByte (c : Config) (addr n : Nat) : Option Nat :=
  if n = 0 ∨ addr + n ≤ spaceSize c then none else some (max addr (spaceSize c))

/-- The host reads `n` bytes from `addr`; the bytes go to `replies` (R246). -/
def hostMemRead (addr n : Nat) (s : State) : Host.Outcome State Fault Refusal :=
  match outsideByte s.cfg addr n with
  | some a => .fault (.outsideBufferMemory a)
  | none => .next { s with replies := (memRead s.mem addr n).map fun b => b.setWidth 64 }

/-- The host writes bytes from `addr` (R63). -/
def hostMemWrite (addr : Nat) (bytes : List Byte) (s : State) : Host.Outcome State Fault Refusal :=
  match outsideByte s.cfg addr bytes.length with
  | some a => .fault (.outsideBufferMemory a)
  | none => .next { s with mem := memWrite s.mem addr bytes }

/-! ### Regions of a command that has been run -/

/-- How many bytes from SRC_ADDR the command that led from `s` to `s'` read, for a writing command (R31, R55): none when it was
ignored under FATAL (R219) or ended in an error (R218). -/
def readCount (s s' : State) : Nat := if s.regs.fatal = true then 0 else s'.regs.consumed.toNat

/-- How many bytes from DST_ADDR it wrote (R32, R56). -/
def writeCount (s s' : State) : Nat := if s.regs.fatal = true then 0 else s'.regs.written.toNat

/-- Byte `a` is one of the `n` bytes from `addr`. -/
def inRegion (addr n a : Nat) : Bool := addr ≤ a && a < addr + n

/-! ### Reset (R240, R242) -/

/-- Reset of the addressed unit (R240): its registers take their reset values; the memory and all else stay. -/
def resetUnit (s : State) : State := { s with regs := Regs.reset }

/-- Reset asserted while a CMD write of `w` is held (R242): the command is abandoned, its write region takes
unspecified bytes (log 8), no byte outside it changes, and the registers are reset. -/
def resetDuringCommand (w : Word) (s : State) : Host.Outcome State Fault Refusal :=
  match executeWord w s with
  | .next s' => .next (resetUnit (scramble s.regs.dstAddr.toNat (writeCount s s') s))
  | .fault r => .fault r
  | .refused r => .refused r

/-! ### A command whose regions other agents touch (R65, R224) -/

/-- The address of a touch. -/
def touchAddr : Touch → Nat
  | .read a => a
  | .write a _ => a

/-- The touch breaks the assumption of R65 on the command that led from `s` to `s'`: it writes a byte of the read
region, or reads or writes a byte of the write region. -/
def disturbs (s s' : State) : Touch → Bool
  | .read a => inRegion s.regs.dstAddr.toNat (writeCount s s') a
  | .write a _ =>
    inRegion s.regs.srcAddr.toNat (readCount s s') a || inRegion s.regs.dstAddr.toNat (writeCount s s') a

/-- One touch, the bytes from `addr`, `n` of them, being the command's write region: there a read gives a free byte
and a write leaves the byte unspecified, as it is; elsewhere a read gives the byte and a write sets it. -/
def doTouch (addr n : Nat) (s : State) : Touch → State
  | .read a =>
    if inRegion addr n a = true then
      { s with replies := s.replies ++ [(Config.freeByte s.fresh).setWidth 64], fresh := s.fresh + 1 }
    else { s with replies := s.replies ++ [(memByte s.mem a).setWidth 64] }
  | .write a b => if inRegion addr n a = true then s else { s with mem := memSetByte s.mem a b }

/-- A CMD write of `w` while other agents touch the memory (R65): the result bank is as the rules give it; when a
touch disturbs the command the bytes it writes are unspecified (log 7); the touches take place, in order. -/
def contendedCommand (w : Word) (touches : List Touch) (s : State) : Host.Outcome State Fault Refusal :=
  match touches.find? fun x => decide (spaceSize s.cfg ≤ touchAddr x) with
  | some x => .fault (.outsideBufferMemory (touchAddr x))
  | none =>
    match executeWord w s with
    | .next s' =>
      let dst := s.regs.dstAddr.toNat
      let n := writeCount s s'
      let s'' := if touches.any (disturbs s s') = true then scramble dst n s' else s'
      .next (touches.foldl (doTouch dst n) s'')
    | .fault r => .fault r
    | .refused r => .refused r

/-! ### One move -/

/-- A move addressed to unit `u`: that unit comes into focus, then `f` is done. -/
def onUnit (u : Nat) (f : State → Host.Outcome State Fault Refusal) (s : State) : Host.Outcome State Fault Refusal :=
  match focusUnit u s with
  | none => .fault (.noSuchUnit u)
  | some s' => f s'

/-- HostWrite(i, v) (R35): a write to CMD runs the command (R21), any other only sets the register. -/
def hostRegWrite (i : Fin 16) (v : Dword) (s : State) : Host.Outcome State Fault Refusal :=
  if i.val = 0 then executeWord (v.setWidth 32) s
  else .next { s with regs := regWrite s.cfg s.regs i v }

/-- HostRead(i) (R36): no side effect but the value handed back. -/
def hostRegRead (i : Fin 16) (s : State) : Host.Outcome State Fault Refusal :=
  .next { s with replies := [regRead s.cfg s.regs i] }

/-- What a move does (R246). -/
def performMove (m : HostMove) (s : State) : Host.Outcome State Fault Refusal :=
  match m with
  | .regWrite u i v => onUnit u (hostRegWrite i v) s
  | .regRead u i => onUnit u (hostRegRead i) s
  | .memRead addr n => hostMemRead addr n s
  | .memWrite addr bytes => hostMemWrite addr bytes s
  | .reset u => onUnit u (fun s => .next (resetUnit s)) s
  | .cmdReset u w => onUnit u (resetDuringCommand w) s
  | .cmdContended u w touches => onUnit u (contendedCommand w touches) s

/-- The next move of the list, the replies of the last one gone; with no move to come the unit is idle and
nothing changes (R241, R247, log 1). -/
def nextMove (s : State) : Host.Outcome State Fault Refusal :=
  match s.pending with
  | [] => .next s
  | m :: rest => performMove m { s with pending := rest, replies := [] }

/-- The host's write of the command word `w` to CMD of the addressed unit, as its next move. -/
def queueCommand (w : Word) (s : State) : State :=
  { s with pending := .regWrite (currentUnit s) 0 (w.setWidth 64) :: s.pending }

end Sys2Proof.Machine
end

