-- ==== Sys2Proof/Safety.lean ====
section
/-! DEFINITION. The terms the claims are stated in: the invariant of the machine, the lengths and regions of a
command, the order of its errors (spec/60_exceptions.md R212, R217) and the digits of a value. -/

namespace Sys2Proof.Machine

/-! ### The invariant -/

/-- What holds of every unit's registers between moves: addresses fit ADDR_W (R24, R26); ERR is 0 to 8 (R22, R211);
FATAL comes with UNSUPPORTED_OPERATION (R213); after an error the results are zero (R215) and REQUIRED is zero
but after DEST_TOO_SHORT (R33), where it is not; after success REQUIRED is WRITTEN (R33); counts are lengths below
2^31 (R6). -/
abbrev RegsOk (c : Config) (r : Regs) : Prop :=
  r.srcAddr.toNat < spaceSize c ∧ r.dstAddr.toNat < spaceSize c ∧
  r.err.toNat ≤ 8 ∧ (r.fatal = true → r.err = 5) ∧
  (r.err ≠ 0 → r.res0 = 0 ∧ r.res1 = 0 ∧ r.consumed = 0 ∧ r.written = 0) ∧
  (r.err ≠ 0 → r.err ≠ 1 → r.required = 0) ∧ (r.err = 1 → r.required ≠ 0) ∧
  (r.err = 0 → r.required = r.written) ∧
  r.consumed.toNat < 2 ^ 31 ∧ r.written.toNat < 2 ^ 31 ∧ r.required.toNat < 2 ^ 31

/-- The invariant every step keeps: legal parameters (R5), one register file per unit (R224), the memory in its
canonical form and inside the address space (R50), and every unit's registers as `RegsOk` says. -/
abbrev State.Inv (s : State) : Prop :=
  s.cfg.Legal ∧ (unitFiles s).length = s.cfg.numUnits ∧ s.mem.wf ∧ (∀ c ∈ s.mem, c.1 < spaceSize s.cfg) ∧
  ∀ r ∈ unitFiles s, RegsOk s.cfg r

/-! ### The lengths and regions of a command -/

/-- The tier a command names; AUTO for a command without the field (R72). -/
def tierOf : Instr → Tier
  | .encblk _ t | .decblk _ t | .enctail _ t | .dectail _ t | .encode _ t | .decode _ t => t
  | .div91 | .encpair | .decpair | .digenc | .digdec | .split | .merge | .enclen | .declen | .validate => .auto

/-- The six writing commands (R50). -/
def writesMemory : Instr → Bool
  | .encblk _ _ | .decblk _ _ | .enctail _ _ | .dectail _ _ | .encode _ _ | .decode _ _ => true
  | .div91 | .encpair | .decpair | .digenc | .digdec | .split | .merge | .enclen | .declen | .validate => false

/-- The length of a command's read region (R55), its length operands being non-negative; 0 for a command that never
accesses memory (R50). -/
def inputLen (i : Instr) (s : State) : Nat :=
  match i with
  | .encblk u _ => 13 * unitBlocks u
  | .decblk u _ => 16 * unitBlocks u
  | .enctail n _ => n.toNat
  | .dectail m _ => m.toNat
  | .encode f _ => if f = true then s.regs.srcLen.toNat else 13 * (s.regs.srcLen.toNat / 13)
  | .decode f _ => if f = true then s.regs.srcLen.toNat else 16 * (s.regs.srcLen.toNat / 16)
  | .validate => s.regs.srcLen.toNat
  | .div91 | .encpair | .decpair | .digenc | .digdec | .split | .merge | .enclen | .declen => 0

/-- The output length a writing command computes before writing (R33, R194); 0 for every other command, and where the
text length is invalid. -/
def outputLen (i : Instr) (s : State) : Nat :=
  match i with
  | .encblk u _ => 16 * unitBlocks u
  | .decblk u _ => 13 * unitBlocks u
  | .enctail n _ => encT n.toNat
  | .dectail m _ => (decT m.toNat).getD 0
  | .encode f _ => if f = true then encLen s.regs.srcLen.toNat else 16 * (s.regs.srcLen.toNat / 13)
  | .decode f _ => if f = true then (decLen s.regs.srcLen.toNat).getD 0 else 13 * (s.regs.srcLen.toNat / 16)
  | .div91 | .encpair | .decpair | .digenc | .digdec | .split | .merge | .enclen | .declen | .validate => 0

/-- What a writing command writes for the bytes of its read region (R143, R163, R164, R183, R184); nothing for every
other command. -/
def outputBytes (i : Instr) (bs : List Byte) : List Byte :=
  match i with
  | .encblk u _ => encUnit u bs
  | .decblk u _ => decUnit u bs
  | .enctail _ _ => encTail bs
  | .dectail _ _ => decTail bs
  | .encode f _ => encodeStream f bs
  | .decode f _ => decodeStream f bs
  | .div91 | .encpair | .decpair | .digenc | .digdec | .split | .merge | .enclen | .declen | .validate => []

/-- A writing command that reads `n` bytes and writes `k` finds room: DST_CAP is at least `k`, both regions end inside
the address space, and they share no byte (R57, R58, R212). -/
abbrev Fits (s : State) (n k : Nat) : Prop :=
  (k : Int) ≤ s.regs.dstCap.toInt ∧ s.regs.srcAddr.toNat + n ≤ spaceSize s.cfg ∧
  s.regs.dstAddr.toNat + k ≤ spaceSize s.cfg ∧
  (n = 0 ∨ k = 0 ∨ s.regs.srcAddr.toNat + n ≤ s.regs.dstAddr.toNat ∨ s.regs.dstAddr.toNat + k ≤ s.regs.srcAddr.toNat)

/-- The bytes from SRC_ADDR, `n` of them. -/
def sourceBytes (s : State) (n : Nat) : List Byte := memRead s.mem s.regs.srcAddr.toNat n

/-- The same command with another tier, where it has the field (R72). -/
def setTier (t : Tier) : Instr → Instr
  | .encblk u _ => .encblk u t
  | .decblk u _ => .decblk u t
  | .enctail n _ => .enctail n t
  | .dectail m _ => .dectail m t
  | .encode f _ => .encode f t
  | .decode f _ => .decode f t
  | .div91 => .div91
  | .encpair => .encpair
  | .decpair => .decpair
  | .digenc => .digenc
  | .digdec => .digdec
  | .split => .split
  | .merge => .merge
  | .enclen => .enclen
  | .declen => .declen
  | .validate => .validate

/-! ### The errors of a command, in the order of R217 -/

/-- The length operands a command reads as signed (R212, NEGATIVE_LENGTH). -/
def lengthOperands (i : Instr) (s : State) : List Int :=
  match i with
  | .encode _ _ | .decode _ _ => [s.regs.srcLen.toInt, s.regs.dstCap.toInt]
  | .encblk _ _ | .decblk _ _ | .enctail _ _ | .dectail _ _ => [s.regs.dstCap.toInt]
  | .validate => [s.regs.srcLen.toInt]
  | .enclen | .declen => [opaLength s]
  | .div91 | .encpair | .decpair | .digenc | .digdec | .split | .merge => []

/-- The input length held against MAX_ENC_LEN (R212, LENGTH_EXCEEDS_MAX). -/
def encodeLengthOf (i : Instr) (s : State) : Option Int :=
  match i with
  | .encode _ _ => some s.regs.srcLen.toInt
  | .enclen => some (opaLength s)
  | .div91 | .encpair | .decpair | .digenc | .digdec | .split | .merge | .encblk _ _ | .decblk _ _ | .enctail _ _
  | .dectail _ _ | .decode _ _ | .declen | .validate => none

/-- The text length that must not be 1, 6 or 11 modulo 16 (R212, INVALID_LENGTH). -/
def textLengthOf (i : Instr) (s : State) : Option Nat :=
  match i with
  | .decode true _ => some s.regs.srcLen.toNat
  | .dectail m _ => some m.toNat
  | .declen => some (opaLength s).toNat
  | .decode false _ => none
  | .div91 | .encpair | .decpair | .digenc | .digdec | .split | .merge | .encblk _ _ | .decblk _ _ | .enctail _ _
  | .encode _ _ | .enclen | .validate => none

/-- The read or the write region of a command passes the top of the address space (R57; VALIDATE has an empty write
region at address 0, R189). -/
def passesTop (i : Instr) (s : State) : Bool :=
  match i with
  | .encblk _ _ | .decblk _ _ | .enctail _ _ | .dectail _ _ | .encode _ _ | .decode _ _ =>
    spaceSize s.cfg < s.regs.srcAddr.toNat + inputLen i s || spaceSize s.cfg < s.regs.dstAddr.toNat + outputLen i s
  | .validate => spaceSize s.cfg < s.regs.srcAddr.toNat + inputLen i s
  | .div91 | .encpair | .decpair | .digenc | .digdec | .split | .merge | .enclen | .declen => false

/-- The read and the write region of a writing command share a byte (R58). -/
def regionsOverlap (i : Instr) (s : State) : Bool :=
  0 < inputLen i s && 0 < outputLen i s && s.regs.srcAddr.toNat < s.regs.dstAddr.toNat + outputLen i s &&
    s.regs.dstAddr.toNat < s.regs.srcAddr.toNat + inputLen i s

/-- The causes of R212 for one command, in the order of R217, each with its condition. -/
def errorCauses (i : Instr) (s : State) : List (ErrCode × Bool) :=
  [(.illegalCommand, !i.wellFormed),
   (.unsupportedOperation, !tierPresent s.cfg (tierOf i)),
   (.negativeLength, (lengthOperands i s).any (· < 0)),
   (.lengthExceedsMax, (encodeLengthOf i s).any (fun n => (s.cfg.maxEncLen : Int) < n)),
   (.invalidLength, (textLengthOf i s).any (fun t => t % 16 == 1 || t % 16 == 6 || t % 16 == 11)),
   (.destTooShort, writesMemory i && s.regs.dstCap.toInt < outputLen i s),
   (.range, passesTop i s),
   (.overlap, regionsOverlap i s)]

/-- The error a command reports: the first of its causes that holds, or none (R217). -/
def firstError (i : Instr) (s : State) : ErrCode :=
  match (errorCauses i s).find? (·.2) with
  | some e => e.1
  | none => .ok

/-- The length of the read region of the command word `w` for a writing command that would complete from `s`; 0 when
the word is ignored, illegal, raises an error or names a command that writes nothing (R55, R218, R219). -/
def readRegionLen (w : Word) (s : State) : Nat :=
  match decode w with
  | .ok i => if s.regs.fatal = false ∧ firstError i s = .ok ∧ writesMemory i = true then inputLen i s else 0
  | .error _ => 0

/-- The length of the write region of the command word `w` from `s`, in the same way (R56, R218, R219). -/
def writeRegionLen (w : Word) (s : State) : Nat :=
  match decode w with
  | .ok i => if s.regs.fatal = false ∧ firstError i s = .ok then outputLen i s else 0
  | .error _ => 0

/-- Some touch breaks the assumption of R65 on the command word `w` run from `s`. -/
def Disturbed (w : Word) (s : State) (touches : List Touch) : Prop :=
  ∃ x ∈ touches,
    (s.regs.dstAddr.toNat ≤ touchAddr x ∧ touchAddr x < s.regs.dstAddr.toNat + writeRegionLen w s) ∨
    (∃ b, x = .write (touchAddr x) b) ∧
      s.regs.srcAddr.toNat ≤ touchAddr x ∧ touchAddr x < s.regs.srcAddr.toNat + readRegionLen w s

/-! ### What other agents see and leave (R65) -/

/-- The touch is a read, so it gets a reply. -/
def isRead : Touch → Bool
  | .read _ => true
  | .write _ _ => false

/-- The touch reads a byte of the write region of the command word `w` run from `s`. -/
def readsWriteRegion (w : Word) (s : State) : Touch → Bool
  | .read a => s.regs.dstAddr.toNat ≤ a && a < s.regs.dstAddr.toNat + writeRegionLen w s
  | .write _ _ => false

/-- The byte at `a` after the touches, in order, when it is `b` before them and every write takes place: the last byte
written there, or `b`. -/
def byteAfterTouches (a : Nat) (b : Byte) : List Touch → Byte
  | [] => b
  | .read _ :: touches => byteAfterTouches a b touches
  | .write a' b' :: touches => byteAfterTouches a (if a' = a then b' else b) touches

/-! ### End states -/

/-- `s` with the given result bank, and nothing else changed (R214). -/
def withBank (s : State) (err : BitVec 4) (res0 : Dword) (res1 consumed written required : Word) : State :=
  { s with
    regs := { s.regs with
      err := err, res0 := res0, res1 := res1, consumed := consumed, written := written, required := required } }

/-- `s` after a command that completed with the two results and wrote no memory. -/
def withResults (s : State) (res0 : Dword) (res1 : Word) : State := withBank s 0 res0 res1 0 0 0

/-- `s` after a writing command that completed: the bytes stored at DST_ADDR and the counts set (R56, R216). -/
def withOutput (s : State) (consumed : Nat) (bytes : List Byte) : State :=
  { withBank s 0 0 0 (BitVec.ofNat 32 consumed) (BitVec.ofNat 32 bytes.length) (BitVec.ofNat 32 bytes.length) with
    mem := memWrite s.mem s.regs.dstAddr.toNat bytes }

/-- The command with this OP value is the one word that equals it: any other word with that OP is illegal (R78, R110 and
its like). -/
def OnlyWord (op : Nat) (i : Instr) : Prop :=
  ∀ w : Word, w.toNat % 256 = op → (w.toNat = op ∧ decode w = .ok i) ∨ (w.toNat ≠ op ∧ ∃ e, decode w = .error e)

/-- The symbol of a digit 0 to 90, as a number: 35 above the digit, but 126 for the digit 57 (R11, R102). -/
def digitSymbol (d : Nat) : Nat := if d = 57 then 126 else d + 35

/-- The unit a move addresses; none for an access to the memory. -/
def moveUnit : HostMove → Option Nat
  | .regWrite u _ _ | .regRead u _ | .reset u | .cmdReset u _ | .cmdContended u _ _ => some u
  | .memRead _ _ | .memWrite _ _ => none

/-- The move is a reset of unit `u`, alone or while a command is held (R240, R242). -/
def resetsUnit (u : Nat) : HostMove → Bool
  | .reset v | .cmdReset v _ => v == u
  | .regWrite _ _ _ | .regRead _ _ | .memRead _ _ | .memWrite _ _ | .cmdContended _ _ _ => false

end Sys2Proof.Machine
end

