-- ==== Sys2Proof/Certificates/Slice0/Obligations.lean ====
section
/-! DEFINITION. The statements about the model, for the provers. -/

open Sys2Proof Sys2Proof.Machine

/-! ### Encoding -/

/-- R70 to R81: decoding an encoded well-formed instruction gives it back, every operand at every value. -/
def Obligations.DecodeInvertsEncode : Prop :=
  ∀ i : Instr, i.WellFormed → decode (encode i) = .ok i

/-- R78, R81: a word that decodes is the word of the instruction it decodes to, which is well-formed: no legal word has a
second reading and no field is dropped. -/
def Obligations.EncodeInvertsDecode : Prop :=
  ∀ (w : Word) (i : Instr), decode w = .ok i → i.WellFormed ∧ encode i = w

/-- R78: a word is legal exactly when its reserved bits are zero, T is at most 5 and its fields meet the condition of its
operation's row. -/
def Obligations.LegalWordsAreTheTable : Prop :=
  ∀ w : Word,
    (∃ i, decode w = .ok i) ↔
      w.toNat / 65536 = 0 ∧ w.toNat / 256 % 8 ≤ 5 ∧
      ((w.toNat % 256 ∈ [0x01, 0x02, 0x03, 0x04, 0x05, 0x08, 0x09, 0x22, 0x23, 0x24] ∧
          w.toNat / 256 % 8 = 0 ∧ w.toNat / 2048 % 2 = 0 ∧ w.toNat / 4096 % 16 = 0) ∨
        (w.toNat % 256 ∈ [0x10, 0x11] ∧ w.toNat / 2048 % 2 = 0 ∧ w.toNat / 4096 % 16 ≤ 2) ∨
        (w.toNat % 256 = 0x12 ∧ w.toNat / 2048 % 2 = 0 ∧ w.toNat / 4096 % 16 ≤ 12) ∨
        (w.toNat % 256 = 0x13 ∧ w.toNat / 2048 % 2 = 0) ∨
        (w.toNat % 256 ∈ [0x20, 0x21] ∧ w.toNat / 4096 % 16 = 0))

/-- R76, R82: words written out from the table and from the assembler examples decode to the commands they stand for. -/
def Obligations.CommandWordsDecode : Prop :=
  decode 0x00000001 = .ok .div91 ∧ decode 0x00000003 = .ok .decpair ∧ decode 0x00000009 = .ok .merge ∧
  decode 0x00001110 = .ok (.encblk .two .scalar) ∧ decode 0x00002511 = .ok (.decblk .four .v512) ∧
  decode 0x0000C012 = .ok (.enctail 12 .auto) ∧ decode 0x0000F013 = .ok (.dectail 15 .auto) ∧
  decode 0x00000820 = .ok (.encode true .auto) ∧ decode 0x00000520 = .ok (.encode false .v512) ∧
  decode 0x00000021 = .ok (.decode false .auto) ∧ decode 0x00000024 = .ok .validate

/-- R79: the illegal words are the ones the rule lists, and one that is not ignored raises ILLEGAL_COMMAND and has no
other effect than CMD and the result bank. -/
def Obligations.IllegalWordsRaiseIllegalCommand : Prop :=
  ∀ w : Word,
    ((∃ e, decode w = .error e) ↔
      (w.toNat % 256 ∉ [0x01, 0x02, 0x03, 0x04, 0x05, 0x08, 0x09, 0x10, 0x11, 0x12, 0x13, 0x20, 0x21, 0x22, 0x23, 0x24] ∨
        6 ≤ w.toNat / 256 % 8 ∨ w.toNat / 65536 ≠ 0 ∨
        (w.toNat % 256 ∈ [0x01, 0x02, 0x03, 0x04, 0x05, 0x08, 0x09, 0x22, 0x23, 0x24] ∧
          (w.toNat / 256 % 8 ≠ 0 ∨ w.toNat / 2048 % 2 ≠ 0 ∨ w.toNat / 4096 % 16 ≠ 0)) ∨
        (w.toNat % 256 ∈ [0x10, 0x11, 0x12, 0x13] ∧ w.toNat / 2048 % 2 ≠ 0) ∨
        (w.toNat % 256 ∈ [0x20, 0x21] ∧ w.toNat / 4096 % 16 ≠ 0) ∨
        (w.toNat % 256 ∈ [0x10, 0x11] ∧ 3 ≤ w.toNat / 4096 % 16) ∨
        (w.toNat % 256 = 0x12 ∧ 13 ≤ w.toNat / 4096 % 16))) ∧
    ∀ s : State, (∃ e, decode w = .error e) → s.regs.fatal = false →
      executeWord w s = .next (withBank { s with regs := { s.regs with cmd := w } } 6 0 0 0 0 0)

/-! ### The step and the moves of the host -/

/-- R21, R84: a CMD write to unit `u` stores the word and executes it, on that unit, in one step, and a word that decodes
to `i` runs `exec i`. The rest is the model's choice: that moves stand in a list and `withFetchWord` places a word at its
head (log 1), that units are numbered and one is current (log 6), and that `exec` is reached before FATAL is tested
(log 13; R84 tests it first, and `FatalCommandsAreIgnored` says that nothing differs). -/
def Obligations.StepRunsTheDecodedCommand : Prop :=
  (∀ (s s1 : State) (u : Nat) (v : Dword) (rest : List HostMove),
    s.pending = .regWrite u 0 v :: rest → focusUnit u s = some s1 →
      step s = executeWord (v.setWidth 32) { s1 with pending := rest, replies := [] }) ∧
  (∀ (s : State) (w : Word) (i : Instr), decode w = .ok i →
    executeWord w s = exec i { s with regs := { s.regs with cmd := w } }) ∧
  (∀ s : State, focusUnit (currentUnit s) s = some s) ∧
  ∀ (s : State) (w : Nat) (i : Instr), decodeTableWord 32 w = some i →
    step (s.withFetchWord 32 w) = exec i { s with replies := [], regs := { s.regs with cmd := BitVec.ofNat 32 w } }

/-- R219: while FATAL is set a write to CMD stores the word in CMD and does nothing else, whatever the word. -/
def Obligations.FatalCommandsAreIgnored : Prop :=
  ∀ s : State, s.regs.fatal = true →
    (∀ w : Word, executeWord w s = .next { s with regs := { s.regs with cmd := w } }) ∧
    ∀ i : Instr, exec i s = .next s

/-- R35: a host write to CMD of any built unit runs the command on it; to an operand register it sets the value reduced
to the register's width, and every other register of that unit reads as before; to a read-only or reserved index it changes
nothing. How a move names its unit is the model's choice (log 6). -/
def Obligations.RegisterWriteSetsOnlyItsRegister : Prop :=
  ∀ (s s1 : State) (u : Nat) (i : Fin 16) (v : Dword) (rest : List HostMove),
    s.pending = .regWrite u i v :: rest → focusUnit u s = some s1 →
      (i = 0 → step s = executeWord (v.setWidth 32) { s1 with pending := rest, replies := [] }) ∧
      (i ≠ 0 → ∃ r : Regs, step s = .next { s1 with pending := rest, replies := [], regs := r } ∧
        r.fatal = s1.regs.fatal ∧ r.err = s1.regs.err ∧
        ∀ j : Fin 16, (regRead s.cfg r j).toNat =
          if j ≠ i then (regRead s.cfg s1.regs j).toNat
          else if i = 3 ∨ i = 5 then v.toNat % 2 ^ s.cfg.addrW
          else if i = 4 ∨ i = 6 then v.toNat % 2 ^ 32
          else if i = 7 then v.toNat
          else (regRead s.cfg s1.regs i).toNat)

/-- R36, with the layouts of R20, R22 and R23: a host read of any built unit hands back its register zero-extended, 0 for a
reserved index, and changes nothing else. How a move names its unit is the model's choice (log 6). -/
def Obligations.RegisterReadGivesTheValue : Prop :=
  ∀ (s s1 : State) (u : Nat) (i : Fin 16) (rest : List HostMove),
    s.pending = .regRead u i :: rest → focusUnit u s = some s1 →
      step s = .next { s1 with
        pending := rest
        replies := [BitVec.ofNat 64 ([s1.regs.cmd.toNat, s1.regs.err.toNat + 256 * s1.regs.fatal.toNat,
          1 + 2 * s.cfg.v64.toNat + 4 * s.cfg.v128.toNat + 8 * s.cfg.v256.toNat + 16 * s.cfg.v512.toNat,
          s1.regs.srcAddr.toNat, s1.regs.srcLen.toNat, s1.regs.dstAddr.toNat, s1.regs.dstCap.toNat, s1.regs.opa.toNat,
          s1.regs.res0.toNat, s1.regs.res1.toNat, s1.regs.consumed.toNat, s1.regs.written.toNat,
          s1.regs.required.toNat].getD i.val 0)] }

/-- R50, R61, R63: bytes the host writes inside the address space read back, and no other byte and no register changes. -/
def Obligations.HostMemoryWriteReadsBack : Prop :=
  ∀ (s : State) (addr : Nat) (bytes : List Byte) (rest : List HostMove),
    s.mem.wf → addr + bytes.length ≤ 2 ^ s.cfg.addrW →
    s.pending = .memWrite addr bytes :: .memRead addr bytes.length :: rest →
      ∃ t t' : State, step s = .next t ∧ step t = .next t' ∧
        t'.replies = bytes.map (fun b => b.setWidth 64) ∧ unitFiles t' = unitFiles s ∧
        ∀ a, a < addr ∨ addr + bytes.length ≤ a → memByte t'.mem a = memByte s.mem a

/-- The model's choice of where it stops (logs 1, 11 and 12, over R50, R224 and R247): with no move to come the step
changes nothing; a step stops only on a move to a unit that is not built or to a byte outside the address space; each such
move does stop it: a host read, a host write, an access of another agent during a command, and any move to a missing unit;
and a step is never refused. -/
def Obligations.StepStopsOnlyWhereNothingExists : Prop :=
  (∀ s : State, s.pending = [] → step s = .next s) ∧
  (∀ (s : State) (r : Fault), step s = .fault r →
    (∃ u, r = .noSuchUnit u ∧ (unitFiles s).length ≤ u) ∨ (∃ a, r = .outsideBufferMemory a ∧ 2 ^ s.cfg.addrW ≤ a)) ∧
  (∀ (s : State) (r : Refusal), step s ≠ .refused r) ∧
  (∀ (s : State) (addr n : Nat) (rest : List HostMove),
    0 < n → 2 ^ s.cfg.addrW < addr + n → s.pending = .memRead addr n :: rest →
      ∃ a, step s = .fault (.outsideBufferMemory a) ∧ addr ≤ a ∧ a < addr + n) ∧
  (∀ (s : State) (addr : Nat) (bytes : List Byte) (rest : List HostMove),
    0 < bytes.length → 2 ^ s.cfg.addrW < addr + bytes.length → s.pending = .memWrite addr bytes :: rest →
      ∃ a, step s = .fault (.outsideBufferMemory a) ∧ addr ≤ a ∧ a < addr + bytes.length) ∧
  (∀ (s : State) (u : Nat) (w : Word) (touches : List Touch) (rest : List HostMove),
    u < (unitFiles s).length → (∃ x ∈ touches, 2 ^ s.cfg.addrW ≤ touchAddr x) →
    s.pending = .cmdContended u w touches :: rest →
      ∃ x ∈ touches, step s = .fault (.outsideBufferMemory (touchAddr x))) ∧
  ∀ (s : State) (u : Nat) (m : HostMove) (rest : List HostMove),
    s.pending = m :: rest → moveUnit m = some u → (unitFiles s).length ≤ u → step s = .fault (.noSuchUnit u)

/-! ### Reset, FATAL, other agents and other units -/

/-- R240: reset of a unit sets each of its registers to its reset value, every register but CAPS then reads 0 and CAPS
its constant; it leaves the memory, the parameters and the other units; and word 0 after it is an illegal command. -/
def Obligations.ResetGivesTheResetValues : Prop :=
  (∀ (s s1 : State) (u : Nat) (rest : List HostMove), s.pending = .reset u :: rest → focusUnit u s = some s1 →
    ∃ r : Regs, step s = .next { s1 with pending := rest, replies := [], regs := r } ∧
      r.fatal = false ∧ r.err = 0 ∧
      (∀ j : Fin 16, j ≠ 2 → regRead s.cfg r j = 0) ∧ regRead s.cfg r 2 = regRead s.cfg s.regs 2) ∧
  (∀ j : Fin 16, j ≠ 2 → regRead State.reset.cfg State.reset.regs j = 0) ∧
  regRead State.reset.cfg State.reset.regs 2 = 0x1F ∧
  ∀ s : State, s.regs = Regs.reset → ∃ t, executeWord 0 s = .next t ∧ t.regs.err = 6

/-- R213, R240: in every step, a unit whose FATAL is set keeps it set unless the step is a reset of that unit. -/
def Obligations.FatalIsClearedOnlyByReset : Prop :=
  ∀ (s t : State) (k : Nat) (r r' : Regs), step s = .next t →
    (unitFiles s)[k]? = some r → (unitFiles t)[k]? = some r' → r.fatal = true → r'.fatal = false →
      ∃ (m : HostMove) (rest : List HostMove), s.pending = m :: rest ∧ resetsUnit k m = true

/-- R84, R213: a legal command that names an absent tier sets FATAL and ends with error 5; no other command sets FATAL or
ends with error 5, so AUTO and SCALAR never do. -/
def Obligations.AbsentTierIsFatal : Prop :=
  (∀ (i : Instr) (s : State), i.WellFormed → s.regs.fatal = false → tierPresent s.cfg (tierOf i) = false →
    exec i s = .next (withBank { s with regs := { s.regs with fatal := true } } 5 0 0 0 0 0)) ∧
  (∀ (i : Instr) (s t : State), s.regs.fatal = false → exec i s = .next t →
    (t.regs.fatal = true ∨ t.regs.err = 5) → i.WellFormed ∧ tierPresent s.cfg (tierOf i) = false) ∧
  ∀ c : Config, tierPresent c .auto = true ∧ tierPresent c .scalar = true

/-- R242: reset while a CMD write is held gives the registers of the unit their reset values, leaves the other units, and
leaves every byte outside the write region of the command; the bytes inside it are unspecified: free values
(log 8), whatever those are. -/
def Obligations.ResetAbandonsTheHeldCommand : Prop :=
  ∀ (s s1 : State) (u : Nat) (w : Word) (rest : List HostMove),
    s.pending = .cmdReset u w :: rest → focusUnit u s = some s1 →
      ∃ t : State, step s = .next t ∧ t.regs = Regs.reset ∧ t.below = s1.below ∧ t.above = s1.above ∧
        (∀ a, a < s1.regs.dstAddr.toNat ∨ s1.regs.dstAddr.toNat + writeRegionLen w s1 ≤ a →
          memByte t.mem a = memByte s.mem a) ∧
        (s.mem.wf → ∀ k, k < writeRegionLen w s1 →
          memByte t.mem (s1.regs.dstAddr.toNat + k) = Config.freeByte (s.fresh + k))

/-- R65: a CMD write during which other agents touch the memory gives the result bank of the undisturbed command; a byte
outside its write region is as after that command and the writes the agents make there; the bytes of the write region are as
after that command when no touch breaks the assumption, and unspecified when one does; and each read of an agent gets, in
the order of the touches, an unspecified byte where it reads the write region and elsewhere the byte that stands there.
Unspecified bytes are free values, whatever those are. The model's choices: those free values and the order (log 7), and
the commands of several units taken one after the other (log 10). That RES0 of a disturbed VALIDATE is that of the bytes
as they stood at the start is the model's reading of R65 with R60 (log 9). -/
def Obligations.DisturbedBytesAreUnspecified : Prop :=
  ∀ (s s1 : State) (u : Nat) (w : Word) (touches : List Touch) (rest : List HostMove),
    s.pending = .cmdContended u w touches :: rest → focusUnit u s = some s1 →
    (∀ x ∈ touches, touchAddr x < 2 ^ s.cfg.addrW) →
      ∃ t s' : State, step s = .next t ∧ executeWord w { s1 with pending := rest, replies := [] } = .next s' ∧
        t.regs = s'.regs ∧ t.below = s'.below ∧ t.above = s'.above ∧
        (∀ a, a < s1.regs.dstAddr.toNat ∨ s1.regs.dstAddr.toNat + writeRegionLen w s1 ≤ a →
          (∀ b, Touch.write a b ∉ touches) → memByte t.mem a = memByte s'.mem a) ∧
        (s.mem.wf → ∀ a, a < s1.regs.dstAddr.toNat ∨ s1.regs.dstAddr.toNat + writeRegionLen w s1 ≤ a →
          memByte t.mem a = byteAfterTouches a (memByte s'.mem a) touches) ∧
        (¬Disturbed w s1 touches → ∀ k, k < writeRegionLen w s1 →
          memByte t.mem (s1.regs.dstAddr.toNat + k) = memByte s'.mem (s1.regs.dstAddr.toNat + k)) ∧
        (Disturbed w s1 touches → s.mem.wf → ∀ k, k < writeRegionLen w s1 →
          memByte t.mem (s1.regs.dstAddr.toNat + k) = Config.freeByte (s.fresh + k)) ∧
        t.replies.length = touches.countP isRead ∧
        ∀ (before after : List Touch) (a : Nat), touches = before ++ .read a :: after →
          (s1.regs.dstAddr.toNat ≤ a ∧ a < s1.regs.dstAddr.toNat + writeRegionLen w s1 →
            t.replies[before.countP isRead]? = some ((Config.freeByte
              (s.fresh + writeRegionLen w s1 + before.countP (readsWriteRegion w s1))).setWidth 64)) ∧
          (s.mem.wf → a < s1.regs.dstAddr.toNat ∨ s1.regs.dstAddr.toNat + writeRegionLen w s1 ≤ a →
            t.replies[before.countP isRead]? = some ((byteAfterTouches a (memByte s.mem a) before).setWidth 64))

/-- R224: no step changes the parameters, the number of units or the register file of a unit its move does not address. -/
def Obligations.UnitsShareOnlyTheMemory : Prop :=
  ∀ s t : State, step s = .next t →
    t.cfg = s.cfg ∧ (unitFiles t).length = (unitFiles s).length ∧
    ∀ k, (∀ (m : HostMove) (rest : List HostMove), s.pending = m :: rest → moveUnit m ≠ some k) →
      (unitFiles t)[k]? = (unitFiles s)[k]?

/-! ### Every command -/

/-- R214: an executed command word, legal or not, rewrites the whole result bank, so no earlier value of it survives or
matters; it ends with an error and zero results or without one; and it never writes an operand register. -/
def Obligations.ResultBankIsRewritten : Prop :=
  ∀ (w : Word) (s : State), s.regs.fatal = false →
    (∀ (e : BitVec 4) (a : Dword) (b c x q : Word), executeWord w (withBank s e a b c x q) = executeWord w s) ∧
    ∃ t : State, executeWord w s = .next t ∧
      (t.regs.err = 0 ∨ (t.regs.res0 = 0 ∧ t.regs.res1 = 0 ∧ t.regs.consumed = 0 ∧ t.regs.written = 0)) ∧
      t.regs.srcAddr = s.regs.srcAddr ∧ t.regs.srcLen = s.regs.srcLen ∧ t.regs.dstAddr = s.regs.dstAddr ∧
      t.regs.dstCap = s.regs.dstCap ∧ t.regs.opa = s.regs.opa

/-- The frame of all sixteen commands (R39, R50, R214): nothing changes but the result bank, FATAL and, for the six writing
commands, the memory. -/
def Obligations.CommandsChangeOnlyBankAndMemory : Prop :=
  ∀ (i : Instr) (s t : State), exec i s = .next t →
    t = { s with
      mem := t.mem
      regs := { s.regs with
        err := t.regs.err, fatal := t.regs.fatal, res0 := t.regs.res0, res1 := t.regs.res1,
        consumed := t.regs.consumed, written := t.regs.written, required := t.regs.required } } ∧
    (writesMemory i = false → t.mem = s.mem)

/-- R56: every byte outside the write region, `outputLen` bytes from DST_ADDR, reads as before; a command that ends in an error, or that
is ignored, writes no byte; and one that completes writes exactly its output bytes, WRITTEN of them. -/
def Obligations.CommandsWriteExactlyTheWriteRegion : Prop :=
  ∀ (i : Instr) (s t : State), exec i s = .next t →
    (∀ a, a < s.regs.dstAddr.toNat ∨ s.regs.dstAddr.toNat + outputLen i s ≤ a → memByte t.mem a = memByte s.mem a) ∧
    (s.regs.fatal = true ∨ t.regs.err ≠ 0 → t.mem = s.mem) ∧
    (s.regs.fatal = false → t.regs.err = 0 → writesMemory i = true →
      t.regs.written.toNat = outputLen i s ∧ t.regs.consumed.toNat = inputLen i s ∧
      (s.mem.wf → memRead t.mem s.regs.dstAddr.toNat (outputLen i s) = outputBytes i (sourceBytes s (inputLen i s))))

/-- R55, R60: the result bank and the bytes written depend on no byte of memory outside the read region. -/
def Obligations.CommandsReadOnlyTheReadRegion : Prop :=
  ∀ (i : Instr) (s t t' : State) (m : Memory),
    (∀ a, s.regs.srcAddr.toNat ≤ a → a < s.regs.srcAddr.toNat + inputLen i s → memByte m a = memByte s.mem a) →
    exec i s = .next t → exec i { s with mem := m } = .next t' →
      t'.regs = t.regs ∧
      (s.mem.wf → m.wf → s.regs.fatal = false → t.regs.err = 0 → ∀ k, k < outputLen i s →
        memByte t'.mem (s.regs.dstAddr.toNat + k) = memByte t.mem (s.regs.dstAddr.toNat + k))

/-- R72, R144: the tier a command names changes nothing of what it does, as long as the tier is present. -/
def Obligations.TierChangesNoResult : Prop :=
  ∀ (i : Instr) (t : Tier) (s : State), tierPresent s.cfg t = true → tierPresent s.cfg (tierOf i) = true →
    exec (setTier t i) s = exec i s

/-- R212, R215, R217: a command under FATAL is ignored; an illegal word reports ILLEGAL_COMMAND; any other reports the
first of its causes in the order of R217, and REQUIRED carries the output length for DEST_TOO_SHORT, WRITTEN on success
and 0 otherwise. That the ill-formed term, ENCTAIL with N above 12, which no word decodes to, reports ILLEGAL_COMMAND as
well is the model's inference (log 15). -/
def Obligations.ErrorsFollowThePriority : Prop :=
  (∀ (i : Instr) (s : State), s.regs.fatal = true → exec i s = .next s) ∧
  (∀ (w : Word) (e : Illegal) (s : State), s.regs.fatal = false → decode w = .error e →
    ∃ t : State, executeWord w s = .next t ∧ t.regs.err = errNumber .illegalCommand ∧ t.regs.required = 0) ∧
  ∀ (i : Instr) (s : State), s.regs.fatal = false →
    ∃ t : State, exec i s = .next t ∧ t.regs.err = errNumber (firstError i s) ∧
      t.regs.required =
        (if firstError i s = .destTooShort then BitVec.ofNat 32 (outputLen i s)
        else if firstError i s = .ok then t.regs.written else 0)

/-! ### The register-only commands -/

/-- R110: DIV91 gives quotient and remainder of OPA[12:0] by 91; no other word with its OP is legal. -/
def Obligations.Div91Divides : Prop :=
  (∀ s : State, s.regs.fatal = false →
    exec .div91 s = .next (withResults s (BitVec.ofNat 64 (s.regs.opa.toNat % 8192 / 91))
      (BitVec.ofNat 32 (s.regs.opa.toNat % 8192 % 91)))) ∧
  OnlyWord 0x01 .div91

/-- R111: ENCPAIR gives the remainder symbol of OPA[12:0] in RES0[7:0] and the quotient symbol in RES0[15:8]. -/
def Obligations.EncpairGivesTheSymbols : Prop :=
  (∀ s : State, s.regs.fatal = false →
    exec .encpair s = .next (withResults s
      (BitVec.ofNat 64 (digitSymbol (s.regs.opa.toNat % 8192 % 91) + 256 * digitSymbol (s.regs.opa.toNat % 8192 / 91)))
      0)) ∧
  OnlyWord 0x02 .encpair

/-- R112: DECPAIR gives the lane value of the two symbols of OPA[15:0] in RES1 and its low 13 bits in RES0. -/
def Obligations.DecpairGivesTheValue : Prop :=
  (∀ s : State, s.regs.fatal = false →
    exec .decpair s = .next (withResults s
      (BitVec.ofNat 64 (((dig (s.regs.opa.setWidth 8)).toNat + 91 * (dig ((s.regs.opa >>> 8).setWidth 8)).toNat) % 8192))
      (BitVec.ofNat 32 ((dig (s.regs.opa.setWidth 8)).toNat + 91 * (dig ((s.regs.opa >>> 8).setWidth 8)).toNat)))) ∧
  OnlyWord 0x03 .decpair

/-- R113, R102: DIGENC adds 0x23 to OPA[7:0] modulo 256 and replaces 0x5C by 0x7E. -/
def Obligations.DigencGivesTheSymbol : Prop :=
  (∀ s : State, s.regs.fatal = false →
    exec .digenc s = .next (withResults s
      (if (s.regs.opa.toNat % 256 + 0x23) % 256 = 0x5C then 0x7E
        else BitVec.ofNat 64 ((s.regs.opa.toNat % 256 + 0x23) % 256)) 0)) ∧
  OnlyWord 0x04 .digenc

/-- R114, R103: DIGDEC subtracts 0x23 from OPA[7:0] modulo 256 and replaces 91 by 57. -/
def Obligations.DigdecGivesTheDigit : Prop :=
  (∀ s : State, s.regs.fatal = false →
    exec .digdec s = .next (withResults s
      (if (s.regs.opa.toNat % 256 + 256 - 0x23) % 256 = 91 then 57
        else BitVec.ofNat 64 ((s.regs.opa.toNat % 256 + 256 - 0x23) % 256)) 0)) ∧
  OnlyWord 0x05 .digdec

/-- R130, R135: SPLIT puts group i of OPA into lane i of RES0, the top three bits of each lane zero. -/
def Obligations.SplitSpreadsTheGroups : Prop :=
  (∀ s : State, s.regs.fatal = false → ∃ r : Dword, exec .split s = .next (withResults s r 0) ∧
    ∀ i, i < 4 → r.toNat / 2 ^ (16 * i) % 2 ^ 16 = s.regs.opa.toNat / 2 ^ (13 * i) % 2 ^ 13) ∧
  OnlyWord 0x08 .split

/-- R131, R136: MERGE puts bits 12:0 of lane i of OPA into group i of RES0, whose bits 63:52 are zero. -/
def Obligations.MergePacksTheLanes : Prop :=
  (∀ s : State, s.regs.fatal = false → ∃ r : Dword, exec .merge s = .next (withResults s r 0) ∧ r.toNat < 2 ^ 52 ∧
    ∀ i, i < 4 → r.toNat / 2 ^ (13 * i) % 2 ^ 13 = s.regs.opa.toNat / 2 ^ (16 * i) % 2 ^ 13) ∧
  OnlyWord 0x09 .merge

/-- R187: ENCLEN gives 16 for each whole 13 bytes of OPA[31:0] plus ENC_T of the rest, or NEGATIVE_LENGTH, or
LENGTH_EXCEEDS_MAX. -/
def Obligations.EnclenGivesTheLength : Prop :=
  (∀ (s : State) (n : Int), s.regs.fatal = false → n = (s.regs.opa.setWidth 32).toInt →
    (n < 0 → exec .enclen s = .next (withBank s 4 0 0 0 0 0)) ∧
    (0 ≤ n → (s.cfg.maxEncLen : Int) < n → exec .enclen s = .next (withBank s 3 0 0 0 0 0)) ∧
    (0 ≤ n → n ≤ (s.cfg.maxEncLen : Int) →
      exec .enclen s = .next (withResults s
        (BitVec.ofNat 64 (16 * (n.toNat / 13) + [0, 2, 3, 4, 5, 7, 8, 9, 10, 12, 13, 14, 15].getD (n.toNat % 13) 0)) 0))) ∧
  OnlyWord 0x22 .enclen

/-- R188: DECLEN gives 13 for each whole 16 symbols of OPA[31:0] plus the tail length whose ENC_T is the rest, or
NEGATIVE_LENGTH, or INVALID_LENGTH when the rest is 1, 6 or 11. -/
def Obligations.DeclenGivesTheLength : Prop :=
  (∀ (s : State) (n : Int), s.regs.fatal = false → n = (s.regs.opa.setWidth 32).toInt →
    (n < 0 → exec .declen s = .next (withBank s 4 0 0 0 0 0)) ∧
    (0 ≤ n → n.toNat % 16 ∈ [1, 6, 11] → exec .declen s = .next (withBank s 2 0 0 0 0 0)) ∧
    (0 ≤ n → n.toNat % 16 ∉ [1, 6, 11] → ∃ d, d ≤ 12 ∧ encT d = n.toNat % 16 ∧
      exec .declen s = .next (withResults s (BitVec.ofNat 64 (13 * (n.toNat / 16) + d)) 0))) ∧
  OnlyWord 0x23 .declen

/-- R189: VALIDATE gives 1 when the length is legal and every byte of the text is one of the 91 of the alphabet, else 0;
or NEGATIVE_LENGTH, or RANGE; and writes no memory. -/
def Obligations.ValidateChecksTheText : Prop :=
  (∀ (s : State) (n : Int), s.regs.fatal = false → n = s.regs.srcLen.toInt →
    (n < 0 → exec .validate s = .next (withBank s 4 0 0 0 0 0)) ∧
    (0 ≤ n → 2 ^ s.cfg.addrW < s.regs.srcAddr.toNat + n.toNat → exec .validate s = .next (withBank s 7 0 0 0 0 0)) ∧
    (0 ≤ n → s.regs.srcAddr.toNat + n.toNat ≤ 2 ^ s.cfg.addrW →
      ∃ r : Dword, exec .validate s = .next (withResults s r 0) ∧ (r = 0 ∨ r = 1) ∧
        (r = 1 ↔ n.toNat % 16 ∉ [1, 6, 11] ∧ ∀ b ∈ sourceBytes s n.toNat,
          (0x23 ≤ b.toNat ∧ b.toNat ≤ 0x7D ∧ b.toNat ≠ 0x5C) ∨ b.toNat = 0x7E))) ∧
  OnlyWord 0x24 .validate

/-! ### The writing commands -/

/-- R145, R146: with room, ENCBLK writes the text of its 13, 26 or 52 bytes and DECBLK the bytes of its 16, 32 or 64
symbols, at DST_ADDR, and sets the counts. What those bytes are: `UnitsAndStreamsAreTheBlocksInOrder`,
`BlockTextIsTheGroups` and `BlockBytesAreThePairValues`. -/
def Obligations.BlockCommandsComplete : Prop :=
  ∀ (u : UnitSize) (t : Tier) (s : State), s.regs.fatal = false → tierPresent s.cfg t = true →
    (Fits s (13 * unitBlocks u) (16 * unitBlocks u) →
      exec (.encblk u t) s =
        .next (withOutput s (13 * unitBlocks u) (encUnit u (sourceBytes s (13 * unitBlocks u))))) ∧
    (Fits s (16 * unitBlocks u) (13 * unitBlocks u) →
      exec (.decblk u t) s =
        .next (withOutput s (16 * unitBlocks u) (decUnit u (sourceBytes s (16 * unitBlocks u)))))

/-- R165, R166: with room, ENCTAIL writes the symbols of its N bytes and DECTAIL, N being a valid tail length, the bytes
of its N symbols, at DST_ADDR, and they set the counts. What those bytes are: `TailsAreTheGroupsOfThePaddedBlock`. -/
def Obligations.TailCommandsComplete : Prop :=
  ∀ (n : BitVec 4) (t : Tier) (s : State), s.regs.fatal = false → tierPresent s.cfg t = true →
    (n.toNat ≤ 12 → Fits s n.toNat (encT n.toNat) →
      exec (.enctail n t) s = .next (withOutput s n.toNat (encTail (sourceBytes s n.toNat)))) ∧
    (∀ d, d ≤ 12 → encT d = n.toNat → Fits s n.toNat d →
      exec (.dectail n t) s = .next (withOutput s n.toNat (decTail (sourceBytes s n.toNat))))

/-- R185: with room, a final ENCODE writes the text of all SRC_LEN bytes and a non-final one the text of its whole
13-byte blocks, at DST_ADDR, and they set the counts. -/
def Obligations.EncodeCompletes : Prop :=
  ∀ (t : Tier) (s : State) (n : Nat), s.regs.fatal = false → tierPresent s.cfg t = true →
    s.regs.srcLen.toInt = n → n ≤ s.cfg.maxEncLen →
    (Fits s n (encLen n) →
      exec (.encode true t) s = .next (withOutput s n (encodeStream true (sourceBytes s n)))) ∧
    (Fits s (13 * (n / 13)) (16 * (n / 13)) →
      exec (.encode false t) s =
        .next (withOutput s (13 * (n / 13)) (encodeStream false (sourceBytes s (13 * (n / 13))))))

/-- R186: with room, a final DECODE of a valid text length writes the bytes of all SRC_LEN symbols and a non-final one
those of its whole 16-symbol blocks, whatever the length, at DST_ADDR, and they set the counts. -/
def Obligations.DecodeCompletes : Prop :=
  ∀ (t : Tier) (s : State) (n : Nat), s.regs.fatal = false → tierPresent s.cfg t = true → s.regs.srcLen.toInt = n →
    (∀ d, decLen n = some d → Fits s n d →
      exec (.decode true t) s = .next (withOutput s n (decodeStream true (sourceBytes s n)))) ∧
    (Fits s (16 * (n / 16)) (13 * (n / 16)) →
      exec (.decode false t) s =
        .next (withOutput s (16 * (n / 16)) (decodeStream false (sourceBytes s (16 * (n / 16))))))

/-! ### The codec -/

/-- R101: the fixed-point division is exact on the 13-bit domain, both digits are at most 90, and the first value at which the
product form differs is 9736. -/
def Obligations.Div91IsExact : Prop :=
  (∀ v, v < 8192 → div91 v = (v / 91, v % 91) ∧ (div91 v).1 ≤ 90 ∧ (div91 v).2 ≤ 90) ∧
  (∀ v, v < 9736 → (div91 v).1 = v / 91) ∧ (div91 9736).1 ≠ 9736 / 91

/-- R104, R105: Sym maps the digits one to one onto the alphabet, Dig undoes it on both sides, and outside the digits Sym
is not one to one. -/
def Obligations.SymbolsAndDigitsAgree : Prop :=
  (∀ d : Byte, d.toNat ≤ 90 → inAlpha (sym d) = true ∧ dig (sym d) = d) ∧
  (∀ b : Byte, inAlpha b = true → (dig b).toNat ≤ 90 ∧ sym (dig b) = b) ∧
  sym 57 = 0x7E ∧ sym 91 = 0x7E

/-- R108: a pair decodes to the value it encodes; the lane value of two alphabet bytes is at most 8280, is above 8191
exactly for quotient digit 90 and remainder digit 2 or more, and then decodes to itself less 8192. -/
def Obligations.PairsRoundTrip : Prop :=
  (∀ v, v < 8192 → decPair (remSym v) (quoSym v) = (v, v)) ∧
  ∀ b0 b1 : Byte, inAlpha b0 = true → inAlpha b1 = true →
    (decPair b0 b1).2 = (dig b0).toNat + 91 * (dig b1).toNat ∧ (decPair b0 b1).2 ≤ 8280 ∧
    (8191 < (decPair b0 b1).2 ↔ (dig b1).toNat = 90 ∧ 2 ≤ (dig b0).toNat) ∧
    (8191 < (decPair b0 b1).2 → (decPair b0 b1).1 + 8192 = (decPair b0 b1).2)

/-- R133: Merge after Split keeps the low 52 bits, and Split after Merge keeps the low 13 bits of each lane. -/
def Obligations.SplitAndMergeAreInverse : Prop :=
  ∀ w, w < 2 ^ 64 → merge (split w) = w % 2 ^ 52 ∧ split (merge w) = w &&& 0x1FFF1FFF1FFF1FFF

/-- R132, with the meaning of deposit and extract that the spec takes from general knowledge (log 16): they are Split and
Merge for the mask of 13 ones in every 16 bits. -/
def Obligations.DepositAndExtractAreSplitAndMerge : Prop :=
  ∀ w, w < 2 ^ 64 → depositBits 64 w laneMask = split w ∧ extractBits 64 w laneMask = merge w

/-- R141: the lanes of the two overlapping words of the source are the eight groups of the block. -/
def Obligations.TwoWordFormGivesTheGroups : Prop :=
  ∀ bs : List Byte, bs.length = 13 → ∀ i, i < 8 → twoWordLane bs i = group bs i

/-- R8, R52: bit k of the stream is bit k mod 8 of byte k div 8, and the byte list and its number determine each other. -/
def Obligations.StreamBitsAreLittleEndian : Prop :=
  (∀ (bs : List Byte) (k : Nat), (le bs).testBit k = (bs.getD (k / 8) 0).getLsbD (k % 8)) ∧
  (∀ bs : List Byte, leBytes (le bs) bs.length = bs) ∧ ∀ v n, le (leBytes v n) = v % 2 ^ (8 * n)

/-- R53, R140: symbols 2i and 2i+1 of an encoded block are those of the remainder and the quotient by 91 of bits 13i+12 to
13i of its number. -/
def Obligations.BlockTextIsTheGroups : Prop :=
  ∀ bs : List Byte, bs.length = 13 → (encBlock13 bs).length = 16 ∧ ∀ i, i < 8 →
    ((encBlock13 bs).getD (2 * i) 0).toNat = digitSymbol (le bs / 2 ^ (13 * i) % 2 ^ 13 % 91) ∧
    ((encBlock13 bs).getD (2 * i + 1) 0).toNat = digitSymbol (le bs / 2 ^ (13 * i) % 2 ^ 13 / 91)

/-- R142: a decoded block is 13 bytes whose number is the eight pair values, each reduced to 13 bits, at 13-bit stride; it is also
Merge of lanes 0 to 3 with Merge of lanes 4 to 7 above it. -/
def Obligations.BlockBytesAreThePairValues : Prop :=
  ∀ ss : List Byte, ss.length = 16 → ∀ lane : Nat → Nat,
    (∀ i, lane i = (dig (ss.getD (2 * i) 0)).toNat + 91 * (dig (ss.getD (2 * i + 1) 0)).toNat) →
      (decBlock16 ss).length = 13 ∧
      le (decBlock16 ss) = ((List.range 8).map fun i => lane i % 8192 * 2 ^ (13 * i)).sum ∧
      le (decBlock16 ss) =
        merge ((List.range 4).map fun i => lane i * 2 ^ (16 * i)).sum +
          2 ^ 52 * merge ((List.range 4).map fun i => lane (4 + i) * 2 ^ (16 * i)).sum

/-- R147: decoding an encoded block or unit gives its bytes back; encoding a decoded text block gives the text back exactly
when every pair is of alphabet bytes and has a lane value of at most 8191. -/
def Obligations.BlocksRoundTrip : Prop :=
  (∀ bs : List Byte, bs.length = 13 → decBlock16 (encBlock13 bs) = bs) ∧
  (∀ (u : UnitSize) (bs : List Byte), bs.length = 13 * unitBlocks u → decUnit u (encUnit u bs) = bs) ∧
  ∀ ss : List Byte, ss.length = 16 →
    (encBlock13 (decBlock16 ss) = ss ↔ ∀ i, i < 8 →
      inAlpha (ss.getD (2 * i) 0) = true ∧ inAlpha (ss.getD (2 * i + 1) 0) = true ∧
      (decPair (ss.getD (2 * i) 0) (ss.getD (2 * i + 1) 0)).2 ≤ 8191)

/-- R161, R162: ENC_T counts two symbols a whole group and none, one or two for the bits left over, and DEC_T is its
inverse, with 1, 6 and 11 invalid. -/
def Obligations.TailTablesAreConsistent : Prop :=
  (∀ n, n ≤ 12 → encT n = 2 * (8 * n / 13) +
    (if 8 * n % 13 = 0 then 0 else if 8 * n % 13 ≤ 6 then 1 else 2)) ∧
  (∀ n, n ≤ 12 → decT (encT n) = some n) ∧ ∀ m, m < 16 → (decT m = none ↔ m ∈ [1, 6, 11])

/-- R167: the symbols that EncTail drops are all 0x23. -/
def Obligations.DroppedTailSymbolsAreZeroDigits : Prop :=
  ∀ bs : List Byte, bs.length ≤ 12 →
    (encBlock13 (bs ++ List.replicate (13 - bs.length) 0)).drop (encT bs.length) =
      List.replicate (16 - encT bs.length) 0x23

/-- R168: an encoded tail has ENC_T symbols and decodes to its bytes. -/
def Obligations.TailsRoundTrip : Prop :=
  ∀ bs : List Byte, bs.length ≤ 12 → (encTail bs).length = encT bs.length ∧ decTail (encTail bs) = bs

/-- R163, R164: byte j of an encoded tail, for j below ENC_T, is the symbol of the remainder (j even) or of the quotient
(j odd) by 91 of bits 13i+12 to 13i of the tail's number, i being j div 2; and the number of a decoded tail of d bytes is
the sum of the pair values, each reduced to 13 bits, at 13-bit stride, the missing symbols being 0x23, cut to 8d bits. -/
def Obligations.TailsAreTheGroupsOfThePaddedBlock : Prop :=
  (∀ bs : List Byte, bs.length ≤ 12 → (encTail bs).length = encT bs.length ∧ ∀ j, j < encT bs.length →
    ((encTail bs).getD j 0).toNat =
      digitSymbol (if j % 2 = 0 then le bs / 2 ^ (13 * (j / 2)) % 2 ^ 13 % 91
        else le bs / 2 ^ (13 * (j / 2)) % 2 ^ 13 / 91)) ∧
  ∀ (ss : List Byte) (d : Nat), d ≤ 12 → encT d = ss.length → ∀ lane : Nat → Nat,
    (∀ i, lane i = (dig (ss.getD (2 * i) 0x23)).toNat + 91 * (dig (ss.getD (2 * i + 1) 0x23)).toNat) →
      (decTail ss).length = d ∧
      le (decTail ss) = ((List.range 8).map fun i => lane i % 8192 * 2 ^ (13 * i)).sum % 2 ^ (8 * d)

/-- R143, R183, R184: a unit is 1, 2 or 4 blocks, by its code; block j of the output of a unit, and of a stream, is the
encoding or decoding of block j of the input; and what follows the whole blocks of a stream is the tail on a final call and
nothing on another. -/
def Obligations.UnitsAndStreamsAreTheBlocksInOrder : Prop :=
  (∀ u : UnitSize, unitBlocks u = 2 ^ (unitCode u).toNat) ∧
  (∀ (u : UnitSize) (bs : List Byte), bs.length = 13 * unitBlocks u →
    (encUnit u bs).length = 16 * unitBlocks u ∧ ∀ j, j < unitBlocks u →
      ((encUnit u bs).drop (16 * j)).take 16 = encBlock13 ((bs.drop (13 * j)).take 13)) ∧
  (∀ (u : UnitSize) (ss : List Byte), ss.length = 16 * unitBlocks u →
    (decUnit u ss).length = 13 * unitBlocks u ∧ ∀ j, j < unitBlocks u →
      ((decUnit u ss).drop (13 * j)).take 13 = decBlock16 ((ss.drop (16 * j)).take 16)) ∧
  (∀ (f : Bool) (bs : List Byte),
    (∀ j, j < bs.length / 13 →
      ((encodeStream f bs).drop (16 * j)).take 16 = encBlock13 ((bs.drop (13 * j)).take 13)) ∧
    (encodeStream f bs).drop (16 * (bs.length / 13)) =
      if f = true then encTail (bs.drop (13 * (bs.length / 13))) else []) ∧
  ∀ (f : Bool) (ss : List Byte), (f = true → ss.length % 16 ∉ [1, 6, 11]) →
    (∀ j, j < ss.length / 16 →
      ((decodeStream f ss).drop (13 * j)).take 13 = decBlock16 ((ss.drop (16 * j)).take 16)) ∧
    (decodeStream f ss).drop (13 * (ss.length / 16)) =
      if f = true then decTail (ss.drop (16 * (ss.length / 16))) else []

/-- R193: the two length functions undo each other, and no encoded length is invalid. -/
def Obligations.LengthsRoundTrip : Prop :=
  (∀ n, decLen (encLen n) = some n ∧ encLen n % 16 ∉ [1, 6, 11]) ∧ ∀ t d, decLen t = some d → encLen d = t

/-- R182: the encoded length fits a signed 32-bit counter exactly up to 1744830463, and decoded lengths never leave it. -/
def Obligations.MaximumLengthIsTheLargest : Prop :=
  (∀ n, encLen n ≤ 2 ^ 31 - 1 ↔ n ≤ 1744830463) ∧ encLen 1744830463 = 2147483647 ∧ encLen 1744830464 = 2 ^ 31 ∧
  (∀ t d, t ≤ 2 ^ 31 - 1 → decLen t = some d → d ≤ 1744830463) ∧ decLen (2 ^ 31 - 1) = some 1744830463 ∧
  Config.default.maxEncLen = 1744830463

/-- R192: a non-final call on the first k bytes and a final call on what it left give together what one final call gives, for
encoding and for decoding, for every k and every length. Among the text lengths are those that are 1, 6 or 11 modulo 16,
for which R184 defines no final call: there it is the model's `decTail` that stands on both sides, and it gives no bytes
(log 19); the equation does not rest on what it gives. -/
def Obligations.StreamingEqualsOneCall : Prop :=
  (∀ (bs : List Byte) (k : Nat), k ≤ bs.length →
    encodeStream false (bs.take k) ++ encodeStream true (bs.drop (13 * (k / 13))) = encodeStream true bs) ∧
  ∀ (ss : List Byte) (k : Nat), k ≤ ss.length →
    decodeStream false (ss.take k) ++ decodeStream true (ss.drop (16 * (k / 16))) = decodeStream true ss

/-- R168, R192, R193 (the round-trip property of the source): decoding an encoded stream gives its bytes back, and the
lengths are the computed ones. -/
def Obligations.StreamsRoundTrip : Prop :=
  ∀ bs : List Byte, decodeStream true (encodeStream true bs) = bs ∧
    (encodeStream true bs).length = encLen bs.length ∧ decLen (encodeStream true bs).length = some bs.length

/-- R104, R105, R189: every text the encoder writes passes VALIDATE's test. -/
def Obligations.EncodedTextIsValid : Prop :=
  ∀ (f : Bool) (bs : List Byte), validText (encodeStream f bs) = true

/-- The round trip through the machine (R185, R186, R193): after a final ENCODE that completed, a final DECODE of what it
wrote, to anywhere it fits, writes the encoder's input bytes. -/
def Obligations.EncodeThenDecodeRestoresTheInput : Prop :=
  ∀ (s t t' : State) (te td : Tier) (d : Dword) (c : Word),
    s.mem.wf → s.regs.fatal = false → exec (.encode true te) s = .next t → t.regs.err = 0 →
    exec (.decode true td)
      { t with regs := { t.regs with srcAddr := t.regs.dstAddr, srcLen := t.regs.written, dstAddr := d, dstCap := c } }
      = .next t' →
    t'.regs.err = 0 →
      t'.regs.written = s.regs.srcLen ∧ t'.regs.consumed = t.regs.written ∧
      memRead t'.mem d.toNat s.regs.srcLen.toNat = sourceBytes s s.regs.srcLen.toNat

/-! ### The invariant -/

/-- The invariant holds of the machine right after reset (R240); the memory's contents there are the model's choice
(log 3) and the invariant does not rest on them. -/
def Obligations.ResetStateMeetsTheInvariant : Prop := State.reset.Inv

/-- Every step keeps the invariant: legal parameters, one register file per unit, the memory canonical and inside the
address space, and every unit's registers as R22, R24, R26, R33, R211, R213 and R215 leave them. -/
def Obligations.StepKeepsTheInvariant : Prop :=
  ∀ s t : State, s.Inv → step s = .next t → t.Inv
end

