-- ==== Sys2Proof/Laws/Codec.lean ====
section
/-! SUPPORT. How many bytes each codec function gives (spec/42_block_codec.md R140, R142, spec/43_remainder.md R163,
R164, spec/44_streaming.md R183, R184). -/

namespace Sys2Proof.Machine

@[simp] theorem leBytes_length (v n : Nat) : (leBytes v n).length = n := by
  induction n generalizing v with
  | zero => rfl
  | succ n ih => simp [leBytes, ih]

@[simp] theorem encPair_length (v : Nat) : (encPair v).length = 2 := rfl

@[simp] theorem encBlock13_length (bs : List Byte) : (encBlock13 bs).length = 16 := rfl

@[simp] theorem decBlock16_length (ss : List Byte) : (decBlock16 ss).length = 13 := leBytes_length _ _

@[simp] theorem encBlocks_length (k : Nat) (bs : List Byte) : (encBlocks k bs).length = 16 * k := by
  induction k generalizing bs with
  | zero => rfl
  | succ k ih => simp only [encBlocks, List.length_append, encBlock13_length, ih]; omega

@[simp] theorem decBlocks_length (k : Nat) (ss : List Byte) : (decBlocks k ss).length = 13 * k := by
  induction k generalizing ss with
  | zero => rfl
  | succ k ih => simp only [decBlocks, List.length_append, decBlock16_length, ih]; omega

@[simp] theorem encUnit_length (u : UnitSize) (bs : List Byte) : (encUnit u bs).length = 16 * unitBlocks u :=
  encBlocks_length _ _

@[simp] theorem decUnit_length (u : UnitSize) (ss : List Byte) : (decUnit u ss).length = 13 * unitBlocks u :=
  decBlocks_length _ _

/-- No tail gives more than 15 symbols. -/
theorem encT_le (n : Nat) : encT n ≤ 15 := by
  rcases Nat.lt_or_ge n 13 with h | h
  · interval_cases n <;> decide
  · rw [encT, List.getD_eq_getElem?_getD, List.getElem?_eq_none (by simpa using h)]; decide

/-- No tail gives more than 12 bytes. -/
theorem decT_le {m d : Nat} (h : decT m = some d) : d ≤ 12 := by
  rcases Nat.lt_or_ge m 16 with hm | hm
  · interval_cases m <;> simp [decT] at h <;> omega
  · rw [decT, List.getD_eq_getElem?_getD, List.getElem?_eq_none (by simpa using hm)] at h; simp at h

@[simp] theorem encTail_length (bs : List Byte) : (encTail bs).length = encT bs.length := by
  have := encT_le bs.length
  simp only [encTail, List.length_take, encBlock13_length]; omega

@[simp] theorem decTail_length (ss : List Byte) : (decTail ss).length = (decT ss.length).getD 0 := by
  simp only [decTail, List.length_take, decBlock16_length]
  cases h : decT ss.length with
  | none => simp
  | some d => have := decT_le h; simp only [Option.getD_some]; omega

/-- The output of a final encode is EncLen long, of a non-final one 16 for every whole block (R185). -/
theorem encodeStream_length (f : Bool) (bs : List Byte) :
    (encodeStream f bs).length = if f = true then encLen bs.length else 16 * (bs.length / 13) := by
  have h : bs.length - 13 * (bs.length / 13) = bs.length % 13 := by omega
  cases f <;> simp [encodeStream, encLen, h]

/-- The output of a final decode is DecLen long, of a non-final one 13 for every whole block (R186). -/
theorem decodeStream_length (f : Bool) (ss : List Byte) {d : Nat} (hd : f = true → decLen ss.length = some d) :
    (decodeStream f ss).length = if f = true then d else 13 * (ss.length / 16) := by
  have h : ss.length - 16 * (ss.length / 16) = ss.length % 16 := by omega
  cases f with
  | false => simp [decodeStream]
  | true =>
    have hd := hd rfl
    simp only [decLen, Option.map_eq_some_iff] at hd
    obtain ⟨e, he, rfl⟩ := hd
    simp [decodeStream, h, he]

end Sys2Proof.Machine
end

