-- ==== Sys2Proof/Laws/State.lean ====
section
/-! SUPPORT. What each named update of the state leaves in each field, one lemma a field, true by `rfl`, so that no
later proof unfolds a record update. -/

namespace Sys2Proof.Machine

/-! ### raise (R215) -/

@[simp] theorem raise_cfg (e : ErrCode) (q : Nat) (s : State) : (raise e q s).cfg = s.cfg := rfl
@[simp] theorem raise_below (e : ErrCode) (q : Nat) (s : State) : (raise e q s).below = s.below := rfl
@[simp] theorem raise_above (e : ErrCode) (q : Nat) (s : State) : (raise e q s).above = s.above := rfl
@[simp] theorem raise_mem (e : ErrCode) (q : Nat) (s : State) : (raise e q s).mem = s.mem := rfl
@[simp] theorem raise_pending (e : ErrCode) (q : Nat) (s : State) : (raise e q s).pending = s.pending := rfl
@[simp] theorem raise_replies (e : ErrCode) (q : Nat) (s : State) : (raise e q s).replies = s.replies := rfl
@[simp] theorem raise_fresh (e : ErrCode) (q : Nat) (s : State) : (raise e q s).fresh = s.fresh := rfl
@[simp] theorem raise_cmd (e : ErrCode) (q : Nat) (s : State) : (raise e q s).regs.cmd = s.regs.cmd := rfl
@[simp] theorem raise_err (e : ErrCode) (q : Nat) (s : State) : (raise e q s).regs.err = errNumber e := rfl
@[simp] theorem raise_fatal (e : ErrCode) (q : Nat) (s : State) : (raise e q s).regs.fatal = s.regs.fatal := rfl
@[simp] theorem raise_srcAddr (e : ErrCode) (q : Nat) (s : State) : (raise e q s).regs.srcAddr = s.regs.srcAddr := rfl
@[simp] theorem raise_srcLen (e : ErrCode) (q : Nat) (s : State) : (raise e q s).regs.srcLen = s.regs.srcLen := rfl
@[simp] theorem raise_dstAddr (e : ErrCode) (q : Nat) (s : State) : (raise e q s).regs.dstAddr = s.regs.dstAddr := rfl
@[simp] theorem raise_dstCap (e : ErrCode) (q : Nat) (s : State) : (raise e q s).regs.dstCap = s.regs.dstCap := rfl
@[simp] theorem raise_opa (e : ErrCode) (q : Nat) (s : State) : (raise e q s).regs.opa = s.regs.opa := rfl
@[simp] theorem raise_res0 (e : ErrCode) (q : Nat) (s : State) : (raise e q s).regs.res0 = 0 := rfl
@[simp] theorem raise_res1 (e : ErrCode) (q : Nat) (s : State) : (raise e q s).regs.res1 = 0 := rfl
@[simp] theorem raise_consumed (e : ErrCode) (q : Nat) (s : State) : (raise e q s).regs.consumed = 0 := rfl
@[simp] theorem raise_written (e : ErrCode) (q : Nat) (s : State) : (raise e q s).regs.written = 0 := rfl
@[simp] theorem raise_required (e : ErrCode) (q : Nat) (s : State) : (raise e q s).regs.required = BitVec.ofNat 32 q := rfl

/-! ### raiseFatal (R213) -/

@[simp] theorem raiseFatal_cfg (s : State) : (raiseFatal s).cfg = s.cfg := rfl
@[simp] theorem raiseFatal_below (s : State) : (raiseFatal s).below = s.below := rfl
@[simp] theorem raiseFatal_above (s : State) : (raiseFatal s).above = s.above := rfl
@[simp] theorem raiseFatal_mem (s : State) : (raiseFatal s).mem = s.mem := rfl
@[simp] theorem raiseFatal_pending (s : State) : (raiseFatal s).pending = s.pending := rfl
@[simp] theorem raiseFatal_replies (s : State) : (raiseFatal s).replies = s.replies := rfl
@[simp] theorem raiseFatal_fresh (s : State) : (raiseFatal s).fresh = s.fresh := rfl
@[simp] theorem raiseFatal_cmd (s : State) : (raiseFatal s).regs.cmd = s.regs.cmd := rfl
@[simp] theorem raiseFatal_err (s : State) : (raiseFatal s).regs.err = 5 := rfl
@[simp] theorem raiseFatal_fatal (s : State) : (raiseFatal s).regs.fatal = true := rfl
@[simp] theorem raiseFatal_srcAddr (s : State) : (raiseFatal s).regs.srcAddr = s.regs.srcAddr := rfl
@[simp] theorem raiseFatal_srcLen (s : State) : (raiseFatal s).regs.srcLen = s.regs.srcLen := rfl
@[simp] theorem raiseFatal_dstAddr (s : State) : (raiseFatal s).regs.dstAddr = s.regs.dstAddr := rfl
@[simp] theorem raiseFatal_dstCap (s : State) : (raiseFatal s).regs.dstCap = s.regs.dstCap := rfl
@[simp] theorem raiseFatal_opa (s : State) : (raiseFatal s).regs.opa = s.regs.opa := rfl
@[simp] theorem raiseFatal_res0 (s : State) : (raiseFatal s).regs.res0 = 0 := rfl
@[simp] theorem raiseFatal_res1 (s : State) : (raiseFatal s).regs.res1 = 0 := rfl
@[simp] theorem raiseFatal_consumed (s : State) : (raiseFatal s).regs.consumed = 0 := rfl
@[simp] theorem raiseFatal_written (s : State) : (raiseFatal s).regs.written = 0 := rfl
@[simp] theorem raiseFatal_required (s : State) : (raiseFatal s).regs.required = 0 := rfl

/-! ### complete (R216) -/

@[simp] theorem complete_cfg (a b c w q : Nat) (s : State) : (complete a b c w q s).cfg = s.cfg := rfl
@[simp] theorem complete_below (a b c w q : Nat) (s : State) : (complete a b c w q s).below = s.below := rfl
@[simp] theorem complete_above (a b c w q : Nat) (s : State) : (complete a b c w q s).above = s.above := rfl
@[simp] theorem complete_mem (a b c w q : Nat) (s : State) : (complete a b c w q s).mem = s.mem := rfl
@[simp] theorem complete_pending (a b c w q : Nat) (s : State) : (complete a b c w q s).pending = s.pending := rfl
@[simp] theorem complete_replies (a b c w q : Nat) (s : State) : (complete a b c w q s).replies = s.replies := rfl
@[simp] theorem complete_fresh (a b c w q : Nat) (s : State) : (complete a b c w q s).fresh = s.fresh := rfl
@[simp] theorem complete_cmd (a b c w q : Nat) (s : State) : (complete a b c w q s).regs.cmd = s.regs.cmd := rfl
@[simp] theorem complete_err (a b c w q : Nat) (s : State) : (complete a b c w q s).regs.err = 0 := rfl
@[simp] theorem complete_fatal (a b c w q : Nat) (s : State) : (complete a b c w q s).regs.fatal = s.regs.fatal := rfl
@[simp] theorem complete_srcAddr (a b c w q : Nat) (s : State) : (complete a b c w q s).regs.srcAddr = s.regs.srcAddr := rfl
@[simp] theorem complete_srcLen (a b c w q : Nat) (s : State) : (complete a b c w q s).regs.srcLen = s.regs.srcLen := rfl
@[simp] theorem complete_dstAddr (a b c w q : Nat) (s : State) : (complete a b c w q s).regs.dstAddr = s.regs.dstAddr := rfl
@[simp] theorem complete_dstCap (a b c w q : Nat) (s : State) : (complete a b c w q s).regs.dstCap = s.regs.dstCap := rfl
@[simp] theorem complete_opa (a b c w q : Nat) (s : State) : (complete a b c w q s).regs.opa = s.regs.opa := rfl
@[simp] theorem complete_res0 (a b c w q : Nat) (s : State) : (complete a b c w q s).regs.res0 = BitVec.ofNat 64 a := rfl
@[simp] theorem complete_res1 (a b c w q : Nat) (s : State) : (complete a b c w q s).regs.res1 = BitVec.ofNat 32 b := rfl
@[simp] theorem complete_consumed (a b c w q : Nat) (s : State) : (complete a b c w q s).regs.consumed = BitVec.ofNat 32 c := rfl
@[simp] theorem complete_written (a b c w q : Nat) (s : State) : (complete a b c w q s).regs.written = BitVec.ofNat 32 w := rfl
@[simp] theorem complete_required (a b c w q : Nat) (s : State) : (complete a b c w q s).regs.required = BitVec.ofNat 32 q := rfl

/-! ### scramble (R65, R242) -/

@[simp] theorem scramble_cfg (a n : Nat) (s : State) : (scramble a n s).cfg = s.cfg := rfl
@[simp] theorem scramble_below (a n : Nat) (s : State) : (scramble a n s).below = s.below := rfl
@[simp] theorem scramble_above (a n : Nat) (s : State) : (scramble a n s).above = s.above := rfl
@[simp] theorem scramble_mem (a n : Nat) (s : State) : (scramble a n s).mem = memWrite s.mem a (freeBytes s.fresh n) := rfl
@[simp] theorem scramble_pending (a n : Nat) (s : State) : (scramble a n s).pending = s.pending := rfl
@[simp] theorem scramble_replies (a n : Nat) (s : State) : (scramble a n s).replies = s.replies := rfl
@[simp] theorem scramble_fresh (a n : Nat) (s : State) : (scramble a n s).fresh = s.fresh + n := rfl
@[simp] theorem scramble_cmd (a n : Nat) (s : State) : (scramble a n s).regs.cmd = s.regs.cmd := rfl
@[simp] theorem scramble_err (a n : Nat) (s : State) : (scramble a n s).regs.err = s.regs.err := rfl
@[simp] theorem scramble_fatal (a n : Nat) (s : State) : (scramble a n s).regs.fatal = s.regs.fatal := rfl
@[simp] theorem scramble_srcAddr (a n : Nat) (s : State) : (scramble a n s).regs.srcAddr = s.regs.srcAddr := rfl
@[simp] theorem scramble_srcLen (a n : Nat) (s : State) : (scramble a n s).regs.srcLen = s.regs.srcLen := rfl
@[simp] theorem scramble_dstAddr (a n : Nat) (s : State) : (scramble a n s).regs.dstAddr = s.regs.dstAddr := rfl
@[simp] theorem scramble_dstCap (a n : Nat) (s : State) : (scramble a n s).regs.dstCap = s.regs.dstCap := rfl
@[simp] theorem scramble_opa (a n : Nat) (s : State) : (scramble a n s).regs.opa = s.regs.opa := rfl
@[simp] theorem scramble_res0 (a n : Nat) (s : State) : (scramble a n s).regs.res0 = s.regs.res0 := rfl
@[simp] theorem scramble_res1 (a n : Nat) (s : State) : (scramble a n s).regs.res1 = s.regs.res1 := rfl
@[simp] theorem scramble_consumed (a n : Nat) (s : State) : (scramble a n s).regs.consumed = s.regs.consumed := rfl
@[simp] theorem scramble_written (a n : Nat) (s : State) : (scramble a n s).regs.written = s.regs.written := rfl
@[simp] theorem scramble_required (a n : Nat) (s : State) : (scramble a n s).regs.required = s.regs.required := rfl

/-! ### resetUnit (R240) -/

@[simp] theorem resetUnit_cfg (s : State) : (resetUnit s).cfg = s.cfg := rfl
@[simp] theorem resetUnit_below (s : State) : (resetUnit s).below = s.below := rfl
@[simp] theorem resetUnit_above (s : State) : (resetUnit s).above = s.above := rfl
@[simp] theorem resetUnit_mem (s : State) : (resetUnit s).mem = s.mem := rfl
@[simp] theorem resetUnit_pending (s : State) : (resetUnit s).pending = s.pending := rfl
@[simp] theorem resetUnit_replies (s : State) : (resetUnit s).replies = s.replies := rfl
@[simp] theorem resetUnit_fresh (s : State) : (resetUnit s).fresh = s.fresh := rfl
@[simp] theorem resetUnit_cmd (s : State) : (resetUnit s).regs.cmd = 0 := rfl
@[simp] theorem resetUnit_err (s : State) : (resetUnit s).regs.err = 0 := rfl
@[simp] theorem resetUnit_fatal (s : State) : (resetUnit s).regs.fatal = false := rfl
@[simp] theorem resetUnit_srcAddr (s : State) : (resetUnit s).regs.srcAddr = 0 := rfl
@[simp] theorem resetUnit_srcLen (s : State) : (resetUnit s).regs.srcLen = 0 := rfl
@[simp] theorem resetUnit_dstAddr (s : State) : (resetUnit s).regs.dstAddr = 0 := rfl
@[simp] theorem resetUnit_dstCap (s : State) : (resetUnit s).regs.dstCap = 0 := rfl
@[simp] theorem resetUnit_opa (s : State) : (resetUnit s).regs.opa = 0 := rfl
@[simp] theorem resetUnit_res0 (s : State) : (resetUnit s).regs.res0 = 0 := rfl
@[simp] theorem resetUnit_res1 (s : State) : (resetUnit s).regs.res1 = 0 := rfl
@[simp] theorem resetUnit_consumed (s : State) : (resetUnit s).regs.consumed = 0 := rfl
@[simp] theorem resetUnit_written (s : State) : (resetUnit s).regs.written = 0 := rfl
@[simp] theorem resetUnit_required (s : State) : (resetUnit s).regs.required = 0 := rfl

/-! ### withBank -/

@[simp] theorem withBank_cfg (s : State) (e : BitVec 4) (a : Dword) (b c w q : Word) : (withBank s e a b c w q).cfg = s.cfg := rfl
@[simp] theorem withBank_below (s : State) (e : BitVec 4) (a : Dword) (b c w q : Word) : (withBank s e a b c w q).below = s.below := rfl
@[simp] theorem withBank_above (s : State) (e : BitVec 4) (a : Dword) (b c w q : Word) : (withBank s e a b c w q).above = s.above := rfl
@[simp] theorem withBank_mem (s : State) (e : BitVec 4) (a : Dword) (b c w q : Word) : (withBank s e a b c w q).mem = s.mem := rfl
@[simp] theorem withBank_pending (s : State) (e : BitVec 4) (a : Dword) (b c w q : Word) : (withBank s e a b c w q).pending = s.pending := rfl
@[simp] theorem withBank_replies (s : State) (e : BitVec 4) (a : Dword) (b c w q : Word) : (withBank s e a b c w q).replies = s.replies := rfl
@[simp] theorem withBank_fresh (s : State) (e : BitVec 4) (a : Dword) (b c w q : Word) : (withBank s e a b c w q).fresh = s.fresh := rfl
@[simp] theorem withBank_cmd (s : State) (e : BitVec 4) (a : Dword) (b c w q : Word) : (withBank s e a b c w q).regs.cmd = s.regs.cmd := rfl
@[simp] theorem withBank_err (s : State) (e : BitVec 4) (a : Dword) (b c w q : Word) : (withBank s e a b c w q).regs.err = e := rfl
@[simp] theorem withBank_fatal (s : State) (e : BitVec 4) (a : Dword) (b c w q : Word) : (withBank s e a b c w q).regs.fatal = s.regs.fatal := rfl
@[simp] theorem withBank_srcAddr (s : State) (e : BitVec 4) (a : Dword) (b c w q : Word) : (withBank s e a b c w q).regs.srcAddr = s.regs.srcAddr := rfl
@[simp] theorem withBank_srcLen (s : State) (e : BitVec 4) (a : Dword) (b c w q : Word) : (withBank s e a b c w q).regs.srcLen = s.regs.srcLen := rfl
@[simp] theorem withBank_dstAddr (s : State) (e : BitVec 4) (a : Dword) (b c w q : Word) : (withBank s e a b c w q).regs.dstAddr = s.regs.dstAddr := rfl
@[simp] theorem withBank_dstCap (s : State) (e : BitVec 4) (a : Dword) (b c w q : Word) : (withBank s e a b c w q).regs.dstCap = s.regs.dstCap := rfl
@[simp] theorem withBank_opa (s : State) (e : BitVec 4) (a : Dword) (b c w q : Word) : (withBank s e a b c w q).regs.opa = s.regs.opa := rfl
@[simp] theorem withBank_res0 (s : State) (e : BitVec 4) (a : Dword) (b c w q : Word) : (withBank s e a b c w q).regs.res0 = a := rfl
@[simp] theorem withBank_res1 (s : State) (e : BitVec 4) (a : Dword) (b c w q : Word) : (withBank s e a b c w q).regs.res1 = b := rfl
@[simp] theorem withBank_consumed (s : State) (e : BitVec 4) (a : Dword) (b c w q : Word) : (withBank s e a b c w q).regs.consumed = c := rfl
@[simp] theorem withBank_written (s : State) (e : BitVec 4) (a : Dword) (b c w q : Word) : (withBank s e a b c w q).regs.written = w := rfl
@[simp] theorem withBank_required (s : State) (e : BitVec 4) (a : Dword) (b c w q : Word) : (withBank s e a b c w q).regs.required = q := rfl

/-! ### withOutput -/

@[simp] theorem withOutput_cfg (s : State) (c : Nat) (bs : List Byte) : (withOutput s c bs).cfg = s.cfg := rfl
@[simp] theorem withOutput_below (s : State) (c : Nat) (bs : List Byte) : (withOutput s c bs).below = s.below := rfl
@[simp] theorem withOutput_above (s : State) (c : Nat) (bs : List Byte) : (withOutput s c bs).above = s.above := rfl
@[simp] theorem withOutput_mem (s : State) (c : Nat) (bs : List Byte) : (withOutput s c bs).mem = memWrite s.mem s.regs.dstAddr.toNat bs := rfl
@[simp] theorem withOutput_pending (s : State) (c : Nat) (bs : List Byte) : (withOutput s c bs).pending = s.pending := rfl
@[simp] theorem withOutput_replies (s : State) (c : Nat) (bs : List Byte) : (withOutput s c bs).replies = s.replies := rfl
@[simp] theorem withOutput_fresh (s : State) (c : Nat) (bs : List Byte) : (withOutput s c bs).fresh = s.fresh := rfl
@[simp] theorem withOutput_cmd (s : State) (c : Nat) (bs : List Byte) : (withOutput s c bs).regs.cmd = s.regs.cmd := rfl
@[simp] theorem withOutput_err (s : State) (c : Nat) (bs : List Byte) : (withOutput s c bs).regs.err = 0 := rfl
@[simp] theorem withOutput_fatal (s : State) (c : Nat) (bs : List Byte) : (withOutput s c bs).regs.fatal = s.regs.fatal := rfl
@[simp] theorem withOutput_srcAddr (s : State) (c : Nat) (bs : List Byte) : (withOutput s c bs).regs.srcAddr = s.regs.srcAddr := rfl
@[simp] theorem withOutput_srcLen (s : State) (c : Nat) (bs : List Byte) : (withOutput s c bs).regs.srcLen = s.regs.srcLen := rfl
@[simp] theorem withOutput_dstAddr (s : State) (c : Nat) (bs : List Byte) : (withOutput s c bs).regs.dstAddr = s.regs.dstAddr := rfl
@[simp] theorem withOutput_dstCap (s : State) (c : Nat) (bs : List Byte) : (withOutput s c bs).regs.dstCap = s.regs.dstCap := rfl
@[simp] theorem withOutput_opa (s : State) (c : Nat) (bs : List Byte) : (withOutput s c bs).regs.opa = s.regs.opa := rfl
@[simp] theorem withOutput_res0 (s : State) (c : Nat) (bs : List Byte) : (withOutput s c bs).regs.res0 = 0 := rfl
@[simp] theorem withOutput_res1 (s : State) (c : Nat) (bs : List Byte) : (withOutput s c bs).regs.res1 = 0 := rfl
@[simp] theorem withOutput_consumed (s : State) (c : Nat) (bs : List Byte) : (withOutput s c bs).regs.consumed = BitVec.ofNat 32 c := rfl
@[simp] theorem withOutput_written (s : State) (c : Nat) (bs : List Byte) : (withOutput s c bs).regs.written = BitVec.ofNat 32 bs.length := rfl
@[simp] theorem withOutput_required (s : State) (c : Nat) (bs : List Byte) : (withOutput s c bs).regs.required = BitVec.ofNat 32 bs.length := rfl

/-! ### Equal forms -/

/-- `raise` is `withBank` with the error's number and an otherwise zero bank. -/
theorem raise_eq_withBank (e : ErrCode) (q : Nat) (s : State) :
    raise e q s = withBank s (errNumber e) 0 0 0 0 (BitVec.ofNat 32 q) := rfl

/-- `complete` is `withBank` with no error. -/
theorem complete_eq_withBank (a b c w q : Nat) (s : State) :
    complete a b c w q s = withBank s 0 (BitVec.ofNat 64 a) (BitVec.ofNat 32 b) (BitVec.ofNat 32 c) (BitVec.ofNat 32 w)
      (BitVec.ofNat 32 q) := rfl

end Sys2Proof.Machine
end

