-- ==== Sys2Proof/Laws/Ends.lean ====
section
/-! SUPPORT. What each shared operation of a command can do, said once: the guard around every command, the common
end of the writing commands, the region check, the focus on a unit, and the command step. -/

namespace Sys2Proof.Machine

/-- CheckRegions passes exactly when both regions end inside the address space and share no byte (R69). -/
theorem checkRegions_eq_none {c : Config} {sa n da k : Nat} :
    checkRegions c sa n da k = none ↔
      sa + n ≤ spaceSize c ∧ da + k ≤ spaceSize c ∧ ¬(0 < n ∧ 0 < k ∧ sa < da + k ∧ da < sa + n) := by
  unfold checkRegions
  split_ifs <;> simp_all

/-- CheckRegions raises RANGE or OVERLAP and nothing else (R69). -/
theorem checkRegions_eq_some {c : Config} {sa n da k : Nat} {e : ErrCode} (h : checkRegions c sa n da k = some e) :
    e = .range ∨ e = .overlap := by
  unfold checkRegions at h
  split_ifs at h <;> simp_all

/-- The four ways the guard of R84 can go. -/
theorem guarded_cases (legal : Bool) (t : Tier) (rule : State → State) (s : State) :
    (s.regs.fatal = true ∧ guarded legal t rule s = s) ∨
    (s.regs.fatal = false ∧ legal = false ∧ guarded legal t rule s = raise .illegalCommand 0 s) ∨
    (s.regs.fatal = false ∧ legal = true ∧ tierPresent s.cfg t = false ∧ guarded legal t rule s = raiseFatal s) ∨
    (s.regs.fatal = false ∧ legal = true ∧ tierPresent s.cfg t = true ∧ guarded legal t rule s = rule s) := by
  unfold guarded
  cases s.regs.fatal <;> cases legal <;> cases tierPresent s.cfg t <;> simp

/-- A command that is neither ignored nor refused performs its rule (R84). -/
theorem guarded_run {legal : Bool} {t : Tier} {rule : State → State} {s : State} (hf : s.regs.fatal = false)
    (hl : legal = true) (ht : tierPresent s.cfg t = true) : guarded legal t rule s = rule s := by
  simp [guarded, hf, hl, ht]

/-- The three ways a transfer can end (R185 and its like): DEST_TOO_SHORT, RANGE or OVERLAP, or all of it done. -/
theorem transfer_cases (n k : Nat) (f : List Byte → List Byte) (s : State) :
    (s.regs.dstCap.toInt < k ∧ transfer n k f s = raise .destTooShort k s) ∨
    ((k : Int) ≤ s.regs.dstCap.toInt ∧ ∃ e, (e = .range ∨ e = .overlap) ∧ transfer n k f s = raise e 0 s) ∨
    ((k : Int) ≤ s.regs.dstCap.toInt ∧ s.regs.srcAddr.toNat + n ≤ spaceSize s.cfg ∧
      s.regs.dstAddr.toNat + k ≤ spaceSize s.cfg ∧
      ¬(0 < n ∧ 0 < k ∧ s.regs.srcAddr.toNat < s.regs.dstAddr.toNat + k ∧
        s.regs.dstAddr.toNat < s.regs.srcAddr.toNat + n) ∧
      transfer n k f s = complete 0 0 n k k
        { s with mem := memWrite s.mem s.regs.dstAddr.toNat (f (memRead s.mem s.regs.srcAddr.toNat n)) }) := by
  unfold transfer
  split
  · next h => exact .inl ⟨h, rfl⟩
  · next h =>
    cases hc : checkRegions s.cfg s.regs.srcAddr.toNat n s.regs.dstAddr.toNat k with
    | some e => exact .inr (.inl ⟨by omega, e, checkRegions_eq_some hc, rfl⟩)
    | none =>
      obtain ⟨h1, h2, h3⟩ := checkRegions_eq_none.mp hc
      exact .inr (.inr ⟨by omega, h1, h2, h3, rfl⟩)

/-- A transfer whose capacity and regions are in order completes. -/
theorem transfer_run {n k : Nat} {f : List Byte → List Byte} {s : State} (hc : (k : Int) ≤ s.regs.dstCap.toInt)
    (h1 : s.regs.srcAddr.toNat + n ≤ spaceSize s.cfg) (h2 : s.regs.dstAddr.toNat + k ≤ spaceSize s.cfg)
    (h3 : ¬(0 < n ∧ 0 < k ∧ s.regs.srcAddr.toNat < s.regs.dstAddr.toNat + k ∧
      s.regs.dstAddr.toNat < s.regs.srcAddr.toNat + n)) :
    transfer n k f s = complete 0 0 n k k
      { s with mem := memWrite s.mem s.regs.dstAddr.toNat (f (memRead s.mem s.regs.srcAddr.toNat n)) } := by
  rw [transfer, if_neg (by omega), checkRegions_eq_none.mpr ⟨h1, h2, h3⟩]

/-- The addressed unit is in focus already. -/
theorem focusUnit_current (s : State) : focusUnit (currentUnit s) s = some s := by
  simp [focusUnit, currentUnit, unitFiles]

/-- Focusing on a unit succeeds exactly for a built unit; it changes only which register file is in focus. -/
theorem focusUnit_eq_some {u : Nat} {s t : State} (h : focusUnit u s = some t) :
    u < (unitFiles s).length ∧ unitFiles t = unitFiles s ∧ currentUnit t = u ∧
      t = { s with below := t.below, regs := t.regs, above := t.above } := by
  unfold focusUnit at h
  split at h
  · cases h
  · next r rest hd =>
    injection h with h
    subst h
    have hlt : u < (unitFiles s).length := by
      by_contra hge
      rw [List.drop_eq_nil_of_le (by omega)] at hd
      cases hd
    refine ⟨hlt, ?_, ?_, rfl⟩
    · show List.take u (unitFiles s) ++ r :: rest = unitFiles s
      rw [← hd, List.take_append_drop]
    · show (List.take u (unitFiles s)).length = u
      rw [List.length_take]; omega

/-- No unit beyond those built can be addressed (log 12). -/
theorem focusUnit_eq_none {u : Nat} {s : State} : focusUnit u s = none ↔ (unitFiles s).length ≤ u := by
  unfold focusUnit
  split
  · next hd => simpa [List.drop_eq_nil_iff] using hd
  · next r rest hd =>
    constructor
    · intro h; cases h
    · intro h
      rw [List.drop_eq_nil_of_le h] at hd
      cases hd

/-- Every command answers a next state (R210: an error is a status, not a stop). -/
theorem exec_next (i : Instr) (s : State) : ∃ t, exec i s = .next t := by
  cases i <;> exact ⟨_, rfl⟩

/-- The command step answers a next state for every word (R81, R84). -/
theorem executeWord_next (w : Word) (s : State) : ∃ t, executeWord w s = .next t := by
  unfold executeWord
  split
  · exact exec_next _ _
  · exact ⟨_, rfl⟩

end Sys2Proof.Machine
end

