-- ==== Sys2Proof/Laws/Memory.lean ====
section
/-! SUPPORT. The laws of the buffer memory (spec/20_memory.md R50, R51): a byte reads back the value written, other
bytes stay, every operation keeps the canonical form and stays inside the addresses it is given. -/

namespace Sys2Proof.Machine

/-! ### One byte -/

/-- An address below every listed one reads as unlisted. -/
theorem memByte_of_lt {m : Memory} {a : Nat} (h : ∀ c ∈ m, a < c.1) : memByte m a = unlistedByte := by
  induction m with
  | nil => rfl
  | cons c m ih =>
    obtain ⟨x, b⟩ := c
    have hx : a < x := h (x, b) (by simp)
    rw [memByte, if_neg (by omega)]
    exact ih fun c hc => h c (by simp [hc])

/-- Writing a byte leaves every other byte as it was, in every memory. -/
theorem memByte_memSetByte_ne (m : Memory) {a a' : Nat} (b : Byte) (h : a' ≠ a) :
    memByte (memSetByte m a b) a' = memByte m a' := by
  induction m with
  | nil => by_cases hb : b = unlistedByte <;> simp [memSetByte, memByte, hb, h]
  | cons c m ih =>
    obtain ⟨x, c⟩ := c
    simp only [memSetByte]
    split
    · split <;> simp [memByte, h]
    · split
      · next hx => subst hx; split <;> simp [memByte, h]
      · simp [memByte, ih]

/-- In a canonical memory a byte reads back the value written (R61). -/
theorem memByte_memSetByte_self {m : Memory} (hm : m.wf) (a : Nat) (b : Byte) :
    memByte (memSetByte m a b) a = b := by
  induction m with
  | nil => by_cases hb : b = unlistedByte <;> simp [memSetByte, memByte, hb]
  | cons c m ih =>
    obtain ⟨x, c⟩ := c
    have hlt : ∀ d ∈ m, x < d.1 := (List.pairwise_cons.mp hm.1).1
    have hm' : Memory.wf m := ⟨(List.pairwise_cons.mp hm.1).2, fun d hd => hm.2 d (by simp [hd])⟩
    simp only [memSetByte]
    split
    · next hx =>
      split
      · next hb =>
        rw [hb, memByte, if_neg (by omega)]
        exact memByte_of_lt fun d hd => Nat.lt_trans hx (hlt d hd)
      · simp [memByte]
    · split
      · next hx =>
        subst hx
        split
        · next hb => rw [hb]; exact memByte_of_lt hlt
        · simp [memByte]
      · next hx => rw [memByte, if_neg hx]; exact ih hm'

/-- The addresses listed after a write are the written one or were listed before. -/
theorem mem_memSetByte {m : Memory} {a : Nat} {b : Byte} {c : Host.Cell} (h : c ∈ memSetByte m a b) :
    c = (a, b) ∨ c ∈ m := by
  induction m with
  | nil =>
    simp only [memSetByte] at h
    split at h <;> simp_all
  | cons d m ih =>
    obtain ⟨x, d⟩ := d
    simp only [memSetByte] at h
    split at h
    · split at h
      · exact .inr h
      · simpa using h
    · split at h
      · split at h
        · exact .inr (by simp [h])
        · simp only [List.mem_cons] at h ⊢
          rcases h with h | h
          · exact .inl h
          · exact .inr (.inr h)
      · simp only [List.mem_cons] at h ⊢
        rcases h with h | h
        · exact .inr (.inl h)
        · rcases ih h with h | h
          · exact .inl h
          · exact .inr (.inr h)

/-- Writing a byte keeps the canonical form. -/
theorem memSetByte_wf {m : Memory} (hm : m.wf) (a : Nat) (b : Byte) : Memory.wf (memSetByte m a b) := by
  induction m with
  | nil =>
    simp only [memSetByte]
    split
    · exact hm
    · next hb => exact ⟨by simp, by simpa using hb⟩
  | cons c m ih =>
    obtain ⟨x, c⟩ := c
    obtain ⟨hlt, hp⟩ := List.pairwise_cons.mp hm.1
    have hc : c ≠ unlistedByte := hm.2 (x, c) (by simp)
    have hm' : Memory.wf m := ⟨hp, fun d hd => hm.2 d (by simp [hd])⟩
    simp only [memSetByte]
    split
    · next hx =>
      split
      · exact hm
      · next hb =>
        refine ⟨List.pairwise_cons.mpr ⟨?_, hm.1⟩, ?_⟩
        · intro d hd
          rcases List.mem_cons.mp hd with rfl | hd
          · exact hx
          · exact Nat.lt_trans hx (hlt d hd)
        · intro d hd
          rcases List.mem_cons.mp hd with rfl | hd
          · exact hb
          · exact hm.2 d hd
    · split
      · next hx =>
        subst hx
        split
        · exact hm'
        · next hb =>
          refine ⟨List.pairwise_cons.mpr ⟨hlt, hp⟩, ?_⟩
          intro d hd
          rcases List.mem_cons.mp hd with rfl | hd
          · exact hb
          · exact hm'.2 d hd
      · next hx hne =>
        have hw := ih hm'
        refine ⟨List.pairwise_cons.mpr ⟨?_, hw.1⟩, ?_⟩
        · intro d hd
          rcases mem_memSetByte hd with rfl | hd
          · show x < a
            omega
          · exact hlt d hd
        · intro d hd
          rcases List.mem_cons.mp hd with rfl | hd
          · exact hc
          · exact hw.2 d hd

/-! ### Regions -/

/-- MemRead(addr, n) gives n bytes (R51). -/
@[simp] theorem memRead_length (m : Memory) (a n : Nat) : (memRead m a n).length = n := by
  induction n generalizing a with
  | zero => rfl
  | succ n ih => simp [memRead, ih]

/-- What MemRead gives depends on the bytes of its region only (R55). -/
theorem memRead_congr {m m' : Memory} {a n : Nat} (h : ∀ x, a ≤ x → x < a + n → memByte m x = memByte m' x) :
    memRead m a n = memRead m' a n := by
  induction n generalizing a with
  | zero => rfl
  | succ n ih =>
    rw [memRead, memRead, h a (by omega) (by omega), ih fun x h1 h2 => h x (by omega) (by omega)]

/-- MemWrite leaves every byte outside its region as it was, in every memory (R56). -/
theorem memByte_memWrite_outside (m : Memory) {a x : Nat} {bs : List Byte} (h : x < a ∨ a + bs.length ≤ x) :
    memByte (memWrite m a bs) x = memByte m x := by
  induction bs generalizing m a with
  | nil => rfl
  | cons b bs ih =>
    simp only [List.length_cons] at h
    rw [memWrite, ih _ (by omega), memByte_memSetByte_ne _ _ (by omega)]

/-- MemWrite keeps the canonical form. -/
theorem memWrite_wf {m : Memory} (hm : m.wf) (a : Nat) (bs : List Byte) : Memory.wf (memWrite m a bs) := by
  induction bs generalizing m a with
  | nil => exact hm
  | cons b bs ih => exact ih (memSetByte_wf hm a b) (a + 1)

/-- The addresses listed after MemWrite are in its region or were listed before. -/
theorem mem_memWrite {m : Memory} {a : Nat} {bs : List Byte} {c : Host.Cell} (h : c ∈ memWrite m a bs) :
    (a ≤ c.1 ∧ c.1 < a + bs.length) ∨ c ∈ m := by
  induction bs generalizing m a with
  | nil => exact .inr h
  | cons b bs ih =>
    simp only [List.length_cons]
    rcases ih h with h | h
    · exact .inl (by omega)
    · rcases mem_memSetByte h with rfl | h
      · exact .inl (by simp)
      · exact .inr h

/-- In a canonical memory MemRead gives back what MemWrite wrote (R51, R61). -/
theorem memRead_memWrite {m : Memory} (hm : m.wf) (a : Nat) (bs : List Byte) :
    memRead (memWrite m a bs) a bs.length = bs := by
  induction bs generalizing m a with
  | nil => rfl
  | cons b bs ih =>
    rw [List.length_cons, memRead, memWrite, memByte_memWrite_outside _ (.inl (by omega)),
      memByte_memSetByte_self hm, ih (memSetByte_wf hm a b)]

/-- The memory of the reset state is canonical. -/
theorem reset_mem_wf : State.reset.mem.wf := ⟨List.Pairwise.nil, fun _ h => absurd h (by simp [State.reset])⟩

/-- As many free bytes as asked for. -/
@[simp] theorem freeBytes_length (k n : Nat) : (freeBytes k n).length = n := by
  induction n generalizing k with
  | zero => rfl
  | succ n ih => simp [freeBytes, ih]

end Sys2Proof.Machine
end

