-- ==== Sys2Proof/Laws/Exec.lean ====
section
/-! SUPPORT. What a command can do, said once for all sixteen, so that a proof about every command need not unfold any
meaning. -/

namespace Sys2Proof.Machine

/-- The ways a command can end (R84, R214): ignored under FATAL; an error other than the fatal one, REQUIRED being the
output length for DEST_TOO_SHORT and 0 otherwise; the fatal error; completion without memory; or completion of a writing
command, its regions in order and its output as long as computed. -/
inductive Ending (i : Instr) (s : State) : State → Prop where
  | ignored (hf : s.regs.fatal = true) : Ending i s s
  | short (hf : s.regs.fatal = false) (hw : writesMemory i = true) (h0 : 0 ≤ s.regs.dstCap.toInt)
      (hc : s.regs.dstCap.toInt < outputLen i s) : Ending i s (raise .destTooShort (outputLen i s) s)
  | error (hf : s.regs.fatal = false) (e : ErrCode) (h0 : e ≠ .ok) (h1 : e ≠ .destTooShort)
      (h5 : e ≠ .unsupportedOperation) : Ending i s (raise e 0 s)
  | fatal (hf : s.regs.fatal = false) (hl : i.wellFormed = true) (ht : tierPresent s.cfg (tierOf i) = false) :
      Ending i s (raiseFatal s)
  | done (hf : s.regs.fatal = false) (hw : writesMemory i = false) (a b : Nat) : Ending i s (complete a b 0 0 0 s)
  | wrote (hf : s.regs.fatal = false) (hw : writesMemory i = true)
      (hfit : Fits s (inputLen i s) (outputLen i s))
      (hlen : (outputBytes i (sourceBytes s (inputLen i s))).length = outputLen i s)
      (hin : inputLen i s < 2 ^ 31) :
      Ending i s (complete 0 0 (inputLen i s) (outputLen i s) (outputLen i s)
        { s with mem := memWrite s.mem s.regs.dstAddr.toNat (outputBytes i (sourceBytes s (inputLen i s))) })

/-- A guarded rule ends as its rule does, or is ignored, illegal or fatal. -/
theorem Ending.of_guarded {i : Instr} {s : State} {rule : State → State}
    (h : s.regs.fatal = false → i.wellFormed = true → tierPresent s.cfg (tierOf i) = true → Ending i s (rule s)) :
    Ending i s (guarded i.wellFormed (tierOf i) rule s) := by
  rcases guarded_cases i.wellFormed (tierOf i) rule s with ⟨hf, he⟩ | ⟨hf, -, he⟩ | ⟨hf, hl, ht, he⟩ | ⟨hf, hl, ht, he⟩
  · rw [he]; exact .ignored hf
  · exact he ▸ .error hf _ (by decide) (by decide) (by decide)
  · exact he ▸ .fatal hf hl ht
  · exact he ▸ h hf hl ht

/-- A transfer of a writing command ends with DEST_TOO_SHORT, RANGE or OVERLAP, or completes. -/
theorem Ending.of_transfer {i : Instr} {s : State} {n k : Nat} {f : List Byte → List Byte}
    (hf : s.regs.fatal = false) (hw : writesMemory i = true) (h0 : 0 ≤ s.regs.dstCap.toInt)
    (hn : inputLen i s = n) (hk : outputLen i s = k) (ho : outputBytes i (sourceBytes s n) = f (sourceBytes s n))
    (hlen : (f (sourceBytes s n)).length = k) (hin : n < 2 ^ 31) : Ending i s (transfer n k f s) := by
  subst hn hk
  rcases transfer_cases (inputLen i s) (outputLen i s) f s with
    ⟨hc, he⟩ | ⟨-, e, hr, he⟩ | ⟨hc, h1, h2, h3, he⟩
  · exact he ▸ .short hf hw h0 hc
  · rcases hr with rfl | rfl <;> exact he ▸ .error hf _ (by decide) (by decide) (by decide)
  · have hfit : Fits s (inputLen i s) (outputLen i s) := ⟨hc, h1, h2, by omega⟩
    have hm : f (memRead s.mem s.regs.srcAddr.toNat (inputLen i s)) =
        outputBytes i (sourceBytes s (inputLen i s)) := ho.symm
    rw [he, hm]
    exact .wrote hf hw hfit (by rw [ho]; exact hlen) hin

/-- A signed length that is not negative is the number its bits give, below 2^31 (R6). -/
theorem toInt_nonneg {w : Word} (h : 0 ≤ w.toInt) : w.toInt.toNat = w.toNat ∧ w.toNat < 2 ^ 31 := by
  have := w.isLt
  rw [BitVec.toInt_eq_toNat_cond] at h ⊢
  split_ifs at h ⊢ <;> omega

@[simp] theorem sourceBytes_length (s : State) (n : Nat) : (sourceBytes s n).length = n := memRead_length _ _ _

/-- Every next state of a command is one of its endings. -/
theorem exec_ending {i : Instr} {s t : State} (h : exec i s = .next t) : Ending i s t := by
  cases i with
  | div91 => cases h; exact Ending.of_guarded fun hf _ _ => .done hf rfl _ _
  | encpair => cases h; exact Ending.of_guarded fun hf _ _ => .done hf rfl _ _
  | decpair => cases h; exact Ending.of_guarded fun hf _ _ => .done hf rfl _ _
  | digenc => cases h; exact Ending.of_guarded fun hf _ _ => .done hf rfl _ _
  | digdec => cases h; exact Ending.of_guarded fun hf _ _ => .done hf rfl _ _
  | split => cases h; exact Ending.of_guarded fun hf _ _ => .done hf rfl _ _
  | merge => cases h; exact Ending.of_guarded fun hf _ _ => .done hf rfl _ _
  | encblk u t =>
    cases h
    refine Ending.of_guarded (i := .encblk u t) fun hf _ _ => ?_
    split
    · exact .error hf _ (by decide) (by decide) (by decide)
    · next hc =>
      exact .of_transfer hf rfl (by simpa [dstCapacity] using hc) rfl rfl rfl (by simp) (by cases u <;> decide)
  | decblk u t =>
    cases h
    refine Ending.of_guarded (i := .decblk u t) fun hf _ _ => ?_
    split
    · exact .error hf _ (by decide) (by decide) (by decide)
    · next hc =>
      exact .of_transfer hf rfl (by simpa [dstCapacity] using hc) rfl rfl rfl (by simp) (by cases u <;> decide)
  | enctail n t =>
    cases h
    refine Ending.of_guarded (i := .enctail n t) fun hf _ _ => ?_
    split
    · exact .error hf _ (by decide) (by decide) (by decide)
    · next hc =>
      exact .of_transfer hf rfl (by simpa [dstCapacity] using hc) rfl rfl rfl (by simp) (by have := n.isLt; omega)
  | dectail m t =>
    cases h
    refine Ending.of_guarded (i := .dectail m t) fun hf _ _ => ?_
    split
    · exact .error hf _ (by decide) (by decide) (by decide)
    · next hc =>
      split
      · exact .error hf _ (by decide) (by decide) (by decide)
      · next d hd =>
        exact .of_transfer hf rfl (by simpa [dstCapacity] using hc) rfl (by simp [outputLen, hd]) rfl (by simp [hd])
          (by have := m.isLt; omega)
  | encode f t =>
    cases h
    refine Ending.of_guarded (i := .encode f t) fun hf _ _ => ?_
    dsimp only
    split
    · exact .error hf _ (by decide) (by decide) (by decide)
    · next hc =>
      simp only [srcLength, dstCapacity, not_or, not_lt] at hc
      obtain ⟨hl, hc⟩ := hc
      obtain ⟨he, hlt⟩ := toInt_nonneg hl
      split
      · exact .error hf _ (by decide) (by decide) (by decide)
      · simp only [srcLength, he]
        cases f
        · exact .of_transfer hf rfl hc rfl rfl rfl
            (by rw [encodeStream_length]; simp) (by omega)
        · exact .of_transfer hf rfl hc rfl rfl rfl (by rw [encodeStream_length]; simp) hlt
  | decode f t =>
    cases h
    refine Ending.of_guarded (i := .decode f t) fun hf _ _ => ?_
    dsimp only
    split
    · exact .error hf _ (by decide) (by decide) (by decide)
    · next hc =>
      simp only [srcLength, dstCapacity, not_or, not_lt] at hc
      obtain ⟨hl, hc⟩ := hc
      obtain ⟨he, hlt⟩ := toInt_nonneg hl
      simp only [srcLength, he]
      cases f
      · exact .of_transfer hf rfl hc rfl rfl rfl
          (by rw [decodeStream_length (d := 0) _ _ (by simp)]; simp) (by omega)
      · simp only [if_true]
        split
        · exact .error hf _ (by decide) (by decide) (by decide)
        · next d hd =>
          exact .of_transfer hf rfl hc rfl (by simp [outputLen, hd]) rfl
            (by rw [decodeStream_length (d := d) _ _ (by simp [hd])]; simp) hlt
  | enclen =>
    cases h
    refine Ending.of_guarded (i := .enclen) fun hf _ _ => ?_
    split
    · exact .error hf _ (by decide) (by decide) (by decide)
    · split
      · exact .error hf _ (by decide) (by decide) (by decide)
      · exact .done hf rfl _ _
  | declen =>
    cases h
    refine Ending.of_guarded (i := .declen) fun hf _ _ => ?_
    split
    · exact .error hf _ (by decide) (by decide) (by decide)
    · split
      · exact .error hf _ (by decide) (by decide) (by decide)
      · exact .done hf rfl _ _
  | validate =>
    cases h
    refine Ending.of_guarded (i := .validate) fun hf _ _ => ?_
    split
    · exact .error hf _ (by decide) (by decide) (by decide)
    · split
      · next e he =>
        rcases checkRegions_eq_some he with rfl | rfl <;> exact .error hf _ (by decide) (by decide) (by decide)
      · exact .done hf rfl _ _

end Sys2Proof.Machine
end

