-- ==== Sys2Proof/Laws/Moves.lean ====
section
/-! SUPPORT. What the moves of the host share: a unit comes into focus whatever moves are left, and what a list of touches
(R65) does to the memory, the replies and the counter of free bytes. -/

namespace Sys2Proof.Machine

/-- Which unit comes into focus does not depend on the moves left or on the replies. -/
theorem focusUnit_withMoves {u : Nat} {s s1 : State} (h : focusUnit u s = some s1) (rest : List HostMove)
    (replies : List Dword) :
    focusUnit u { s with pending := rest, replies := replies } =
      some { s1 with pending := rest, replies := replies } := by
  unfold focusUnit unitFiles at h ⊢
  simp only at h ⊢
  split at h
  · cases h
  · cases h; rfl

/-- A touch leaves everything but the memory, the replies and the counter. -/
theorem doTouch_eq (addr n : Nat) (s : State) (x : Touch) :
    doTouch addr n s x = { s with
      mem := (doTouch addr n s x).mem, replies := (doTouch addr n s x).replies,
      fresh := (doTouch addr n s x).fresh } := by
  cases x <;> simp only [doTouch] <;> split <;> rfl

/-- So do touches. -/
theorem touches_eq (addr n : Nat) (touches : List Touch) (s : State) :
    touches.foldl (doTouch addr n) s = { s with
      mem := (touches.foldl (doTouch addr n) s).mem, replies := (touches.foldl (doTouch addr n) s).replies,
      fresh := (touches.foldl (doTouch addr n) s).fresh } := by
  induction touches generalizing s with
  | nil => rfl
  | cons x touches ih => rw [List.foldl_cons, ih, doTouch_eq]

/-- Touches append one reply for each read among them. -/
theorem touches_replies (addr n : Nat) (touches : List Touch) (s : State) :
    ∃ l, (touches.foldl (doTouch addr n) s).replies = s.replies ++ l ∧ l.length = touches.countP isRead := by
  induction touches generalizing s with
  | nil => exact ⟨[], by simp, rfl⟩
  | cons x touches ih =>
    obtain ⟨l, h1, h2⟩ := ih (doTouch addr n s x)
    rw [List.foldl_cons, h1]
    cases x with
    | write a b => exact ⟨l, by simp only [doTouch]; split <;> rfl, by rw [h2, List.countP_cons]; rfl⟩
    | read a =>
      simp only [doTouch]
      split
      all_goals exact ⟨_, List.append_assoc _ _ _, by rw [List.length_append, h2, List.countP_cons, Nat.add_comm]; rfl⟩

/-- Touches take one free byte for each read of the write region among them. -/
theorem touches_fresh (addr n : Nat) (touches : List Touch) (s : State) :
    (touches.foldl (doTouch addr n) s).fresh =
      s.fresh + touches.countP fun x => isRead x && inRegion addr n (touchAddr x) := by
  induction touches generalizing s with
  | nil => rfl
  | cons x touches ih =>
    rw [List.foldl_cons, ih, List.countP_cons]
    cases x with
    | read a =>
      by_cases h : inRegion addr n a = true
      · simp [doTouch, isRead, touchAddr, h]; omega
      · simp [doTouch, isRead, touchAddr, h]
    | write a b => by_cases h : inRegion addr n a = true <;> simp [doTouch, isRead, h]

/-- Touches write only outside the write region, where the last write stands. -/
theorem touches_mem (addr n : Nat) (touches : List Touch) {s : State} (hw : s.mem.wf) :
    (touches.foldl (doTouch addr n) s).mem.wf ∧ ∀ a,
      memByte (touches.foldl (doTouch addr n) s).mem a =
        if inRegion addr n a = true then memByte s.mem a else byteAfterTouches a (memByte s.mem a) touches := by
  induction touches generalizing s with
  | nil => exact ⟨hw, fun a => by split <;> rfl⟩
  | cons x touches ih =>
    rw [List.foldl_cons]
    cases x with
    | read c =>
      have hm : (doTouch addr n s (.read c)).mem = s.mem := by simp only [doTouch]; split <;> rfl
      have := ih (s := doTouch addr n s (.read c)) (hm ▸ hw)
      rwa [hm] at this
    | write c b =>
      by_cases hc : inRegion addr n c = true
      · rw [show doTouch addr n s (.write c b) = s from if_pos hc]
        refine ⟨(ih hw).1, fun a => ?_⟩
        rw [(ih hw).2]
        simp only [byteAfterTouches]
        by_cases ha : c = a
        · subst ha; rw [if_pos hc, if_pos hc]
        · rw [if_neg ha]
      · rw [show doTouch addr n s (.write c b) = { s with mem := memSetByte s.mem c b } from if_neg hc]
        obtain ⟨h1, h2⟩ := ih (s := { s with mem := memSetByte s.mem c b }) (memSetByte_wf hw c b)
        refine ⟨h1, fun a => ?_⟩
        rw [h2]
        simp only [byteAfterTouches]
        by_cases ha : c = a
        · subst ha; simp [hc, memByte_memSetByte_self hw]
        · rw [memByte_memSetByte_ne _ _ (Ne.symm ha), if_neg ha]

/-- The reply to one read of a list of touches: a free byte inside the write region, the byte that stands there outside. -/
theorem touches_reply (addr n : Nat) (before after : List Touch) (a : Nat) {s : State} (h : s.replies = []) :
    ((before ++ .read a :: after).foldl (doTouch addr n) s).replies[before.countP isRead]? =
      some (if inRegion addr n a = true then (Config.freeByte (before.foldl (doTouch addr n) s).fresh).setWidth 64
        else (memByte (before.foldl (doTouch addr n) s).mem a).setWidth 64) := by
  obtain ⟨l1, e1, c1⟩ := touches_replies addr n before s
  obtain ⟨l2, e2, -⟩ := touches_replies addr n after (doTouch addr n (before.foldl (doTouch addr n) s) (.read a))
  rw [h, List.nil_append] at e1
  rw [List.foldl_append, List.foldl_cons, e2]
  simp only [doTouch]
  split <;> simp [e1, c1]

end Sys2Proof.Machine
end

