-- ==== Sys2Proof/Laws/PerInstr.lean ====
section
/-! SUPPORT. A fact about every instruction as syntax, one lemma per constructor: the fields of its word
(spec/30_encoding.md R70 to R78). -/

namespace Sys2Proof.Laws.WordFields

/-- The OP value of an instruction (R76). -/
def opOf : Instr → BitVec 8
  | .div91 => 0x01
  | .encpair => 0x02
  | .decpair => 0x03
  | .digenc => 0x04
  | .digdec => 0x05
  | .split => 0x08
  | .merge => 0x09
  | .encblk _ _ => 0x10
  | .decblk _ _ => 0x11
  | .enctail _ _ => 0x12
  | .dectail _ _ => 0x13
  | .encode _ _ => 0x20
  | .decode _ _ => 0x21
  | .enclen => 0x22
  | .declen => 0x23
  | .validate => 0x24

/-- The word of an instruction has its OP value, a legal tier code and zero reserved bits. -/
def Statement (i : Instr) : Prop :=
  opField (encode i) = opOf i ∧ (tierField (encode i)).toNat ≤ 5 ∧ reservedField (encode i) = 0

/-- The fields of a packed word are the ones it was packed from. -/
theorem packCommand_fields (op : BitVec 8) (t : Tier) (f : Bool) (n : BitVec 4) :
    opField (packCommand op t f n) = op ∧ tierField (packCommand op t f n) = tierCode t ∧
      finalField (packCommand op t f n) = f ∧ nField (packCommand op t f n) = n ∧
      reservedField (packCommand op t f n) = 0 := by
  refine ⟨?_, ?_, ?_, ?_, ?_⟩
  · ext k hk
    simp only [opField, packCommand, BitVec.getElem_extractLsb', BitVec.getLsbD_append]
    interval_cases k <;> simp
  · ext k hk
    simp only [tierField, packCommand, BitVec.getElem_extractLsb', BitVec.getLsbD_append]
    interval_cases k <;> simp
  · simp only [finalField, packCommand, BitVec.getLsbD_append]
    simp
  · ext k hk
    simp only [nField, packCommand, BitVec.getElem_extractLsb', BitVec.getLsbD_append]
    interval_cases k <;> simp
  · ext k hk
    simp only [reservedField, packCommand, BitVec.getElem_extractLsb', BitVec.getLsbD_append]
    interval_cases k <;> simp

/-- Every tier has a code of at most 5 (R72). -/
theorem tierCode_le (t : Tier) : (tierCode t).toNat ≤ 5 := by cases t <;> decide

/-- The statement of a packed word. -/
theorem of_pack (op : BitVec 8) (t : Tier) (f : Bool) (n : BitVec 4) :
    opField (packCommand op t f n) = op ∧ (tierField (packCommand op t f n)).toNat ≤ 5 ∧
      reservedField (packCommand op t f n) = 0 := by
  obtain ⟨h1, h2, -, -, h5⟩ := packCommand_fields op t f n
  exact ⟨h1, h2 ▸ tierCode_le t, h5⟩

theorem div91 : Statement .div91 := of_pack _ _ _ _
theorem encpair : Statement .encpair := of_pack _ _ _ _
theorem decpair : Statement .decpair := of_pack _ _ _ _
theorem digenc : Statement .digenc := of_pack _ _ _ _
theorem digdec : Statement .digdec := of_pack _ _ _ _
theorem split : Statement .split := of_pack _ _ _ _
theorem merge : Statement .merge := of_pack _ _ _ _
theorem encblk (u : UnitSize) (t : Tier) : Statement (.encblk u t) := of_pack _ _ _ _
theorem decblk (u : UnitSize) (t : Tier) : Statement (.decblk u t) := of_pack _ _ _ _
theorem enctail (n : BitVec 4) (t : Tier) : Statement (.enctail n t) := of_pack _ _ _ _
theorem dectail (m : BitVec 4) (t : Tier) : Statement (.dectail m t) := of_pack _ _ _ _
theorem encode (f : Bool) (t : Tier) : Statement (.encode f t) := of_pack _ _ _ _
theorem decode (f : Bool) (t : Tier) : Statement (.decode f t) := of_pack _ _ _ _
theorem enclen : Statement .enclen := of_pack _ _ _ _
theorem declen : Statement .declen := of_pack _ _ _ _
theorem validate : Statement .validate := of_pack _ _ _ _

end Sys2Proof.Laws.WordFields
end

