-- ==== Sys2Proof/Tests/Slice0.lean ====
section
/-! SUPPORT. Tests of the model, their expected results taken from spec/95_test_vectors.md and the worked examples of the
rules, and the witnesses that the statements' hypotheses can be met. -/

namespace Sys2Proof.Tests

open Sys2Proof.Machine

/-! ### Small states -/

/-- A machine with the given operand registers and memory, else as after reset. -/
def machine (mem : Memory) (src len dst cap opa : Nat) : State :=
  { State.reset with
    mem := mem
    regs := { Regs.reset with
      srcAddr := BitVec.ofNat 64 src, srcLen := BitVec.ofNat 32 len, dstAddr := BitVec.ofNat 64 dst,
      dstCap := BitVec.ofNat 32 cap, opa := BitVec.ofNat 64 opa } }

/-- A machine whose only operand is OPA. -/
def withOpa (v : Nat) : State := machine [] 0 0 0 0 v

/-- A machine with some source bytes at 0x1000 and room at 0x2000. -/
def withSource (bytes : List Byte) (cap : Nat) : State :=
  machine (memWrite [] 0x1000 bytes) 0x1000 bytes.length 0x2000 cap 0

/-- The state an outcome gives, or the reset state where it gives none. -/
def nextOf : Host.Outcome State Fault Refusal → State
  | .next t => t
  | .fault _ => State.reset
  | .refused _ => State.reset

/-- ERR, RES0, RES1, CONSUMED, WRITTEN, REQUIRED as numbers, after a command. -/
def bankAfter (i : Instr) (s : State) : List Nat :=
  let r := (nextOf (exec i s)).regs
  [r.err.toNat, r.res0.toNat, r.res1.toNat, r.consumed.toNat, r.written.toNat, r.required.toNat]

/-- The bytes at 0x2000 after a command. -/
def outputAfter (i : Instr) (s : State) (n : Nat) : List Byte := memRead (nextOf (exec i s)).mem 0x2000 n

/-! ### Well-formedness: the ill-formed terms are refused -/

theorem test_enctail_13_ill_formed : (Instr.enctail 13 .auto).wellFormed = false := by decide
theorem test_enctail_15_ill_formed : (Instr.enctail 15 .v512).wellFormed = false := by decide
theorem test_enctail_12_well_formed : (Instr.enctail 12 .auto).wellFormed = true := by decide

/-! ### Decoding: words written out bit by bit from the fields of R70 and the OP values of R76 -/

theorem test_decode_div91 : decode 0b00000000000000000000000000000001 = .ok .div91 := by decide
theorem test_decode_encpair : decode 0b00000000000000000000000000000010 = .ok .encpair := by decide
theorem test_decode_decpair : decode 0b00000000000000000000000000000011 = .ok .decpair := by decide
theorem test_decode_digenc : decode 0b00000000000000000000000000000100 = .ok .digenc := by decide
theorem test_decode_digdec : decode 0b00000000000000000000000000000101 = .ok .digdec := by decide
theorem test_decode_split : decode 0b00000000000000000000000000001000 = .ok .split := by decide
theorem test_decode_merge : decode 0b00000000000000000000000000001001 = .ok .merge := by decide
theorem test_decode_encblk : decode 0b00000000000000000001000100010000 = .ok (.encblk .two .scalar) := by decide
theorem test_decode_decblk : decode 0b00000000000000000010010100010001 = .ok (.decblk .four .v512) := by decide
theorem test_decode_enctail : decode 0b00000000000000001100001000010010 = .ok (.enctail 12 .v64) := by decide
theorem test_decode_dectail : decode 0b00000000000000001111001100010011 = .ok (.dectail 15 .v128) := by decide
theorem test_decode_encode : decode 0b00000000000000000000100000100000 = .ok (.encode true .auto) := by decide
theorem test_decode_decode : decode 0b00000000000000000000010000100001 = .ok (.decode false .v256) := by decide
theorem test_decode_enclen : decode 0b00000000000000000000000000100010 = .ok .enclen := by decide
theorem test_decode_declen : decode 0b00000000000000000000000000100011 = .ok .declen := by decide
theorem test_decode_validate : decode 0b00000000000000000000000000100100 = .ok .validate := by decide

/-- Illegal words of spec/95_test_vectors.md L2.8.2 and L2.10, one for each reason. -/
theorem test_decode_illegal :
    [0x00000000, 0x00000025, 0x00000720, 0x00003010, 0x0000D012, 0x00000801, 0x00001020, 0x00010020].map
      (fun w : Word => match decode w with | .ok _ => none | .error e => some e) =
    [some .operation, some .operation, some .tierCode, some .unitSize, some .tailLength, some .fieldNotZero,
      some .fieldNotZero, some .reservedBits] := by decide

/-! ### The commands (spec/95_test_vectors.md L2) -/

theorem test_div91_255 : bankAfter .div91 (withOpa 255) = [0, 2, 73, 0, 0, 0] := by decide
theorem test_div91_ignores_high_bits : bankAfter .div91 (withOpa 0xFFFFFFFFFFFFFFFF) = [0, 90, 1, 0, 0, 0] := by decide
theorem test_encpair_57 : bankAfter .encpair (withOpa 57) = [0, 0x237E, 0, 0, 0, 0] := by decide
theorem test_encpair_5187 : bankAfter .encpair (withOpa 5187) = [0, 0x7E23, 0, 0, 0, 0] := by decide
theorem test_decpair_above_13_bits : bankAfter .decpair (withOpa 0x7D25) = [0, 0, 8192, 0, 0, 0] := by decide
theorem test_decpair_out_of_alphabet : bankAfter .decpair (withOpa 0) = [0, 3948, 20332, 0, 0, 0] := by decide
theorem test_digenc_57 : bankAfter .digenc (withOpa 57) = [0, 0x7E, 0, 0, 0, 0] := by decide
theorem test_digenc_wraps : bankAfter .digenc (withOpa 221) = [0, 0, 0, 0, 0, 0] := by decide
theorem test_digdec_5c : bankAfter .digdec (withOpa 0x5C) = [0, 57, 0, 0, 0, 0] := by decide
theorem test_digdec_wraps : bankAfter .digdec (withOpa 0x22) = [0, 255, 0, 0, 0, 0] := by decide
theorem test_split_word : bankAfter .split (withOpa 0x0123456789ABCDEF) = [0, 0x068A19E20D5E0DEF, 0, 0, 0, 0] := by decide
theorem test_merge_word : bankAfter .merge (withOpa 0x0123456789ABCDEF) = [0, 0x000091959D356DEF, 0, 0, 0, 0] := by decide

/-- Thirteen bytes 00 01 … 0C (L2.6.1). -/
def count13 : List Byte := [0, 1, 2, 3, 4, 5, 6, 7, 8, 9, 10, 11, 12]

/-- Their text (L2.6.1). -/
def text16 : List Byte :=
  [0x6D, 0x25, 0x62, 0x66, 0x6D, 0x25, 0x72, 0x44, 0x38, 0x24, 0x63, 0x2F, 0x35, 0x45, 0x38, 0x27]

theorem test_encblk_bank : bankAfter (.encblk .one .v512) (withSource count13 16) = [0, 0, 0, 13, 16, 16] := by decide
theorem test_encblk_text : outputAfter (.encblk .one .auto) (withSource count13 16) 16 = text16 := by decide +kernel
theorem test_decblk_bytes : outputAfter (.decblk .one .scalar) (withSource text16 13) 13 = count13 := by decide +kernel
theorem test_decblk_capacity : bankAfter (.decblk .two .auto) (withSource [] 25) = [1, 0, 0, 0, 0, 26] := by decide
theorem test_enctail_three_bits :
    outputAfter (.enctail 2 .auto) (withSource [0xFF, 0xFF] 3) 3 = [0x24, 0x7D, 0x2A] := by decide +kernel
theorem test_enctail_empty : bankAfter (.enctail 0 .auto) (withSource [] 0) = [0, 0, 0, 0, 0, 0] := by decide
theorem test_dectail_excess_bits :
    outputAfter (.dectail 3 .auto) (withSource [0x23, 0x23, 0x7D] 16) 2 = [0x00, 0x40] := by decide +kernel
theorem test_dectail_invalid_before_capacity :
    bankAfter (.dectail 6 .auto) (withSource [] 0) = [2, 0, 0, 0, 0, 0] := by decide
theorem test_encode_final_byte :
    outputAfter (.encode true .auto) (withSource [0xFF] 2) 2 = [0x6C, 0x25] := by decide +kernel
theorem test_encode_not_final : bankAfter (.encode false .auto) (withSource [0xFF] 2) = [0, 0, 0, 0, 0, 0] := by decide
theorem test_decode_final_byte : outputAfter (.decode true .auto) (withSource [0x6C, 0x25] 1) 1 = [0xFF] := by decide +kernel
theorem test_decode_17_not_final :
    bankAfter (.decode false .auto) (machine [] 0x1000 17 0x2000 13 0) = [0, 0, 0, 16, 13, 13] := by decide +kernel
theorem test_enclen_100 : bankAfter .enclen (withOpa 100) = [0, 124, 0, 0, 0, 0] := by decide
theorem test_enclen_max : bankAfter .enclen (withOpa 1744830464) = [3, 0, 0, 0, 0, 0] := by decide
theorem test_declen_100 : bankAfter .declen (withOpa 0x100000064) = [0, 81, 0, 0, 0, 0] := by decide
theorem test_declen_invalid : bankAfter .declen (withOpa 11) = [2, 0, 0, 0, 0, 0] := by decide
theorem test_validate_5c : bankAfter .validate (withSource [0x5C, 0x23] 0) = [0, 0, 0, 0, 0, 0] := by decide
theorem test_validate_range :
    bankAfter .validate (machine [] 0xFFFFFFFF 2 0 0 0) = [7, 0, 0, 0, 0, 0] := by decide

/-- L2.6.6: bytes 0x100C are in both regions. -/
theorem test_overlap : bankAfter (.encblk .one .auto) (machine [] 0x1000 0 0x100C 16 0) = [8, 0, 0, 0, 0, 0] := by decide

/-- L2.6.6: adjacent regions do not overlap. -/
theorem test_adjacent : bankAfter (.encblk .one .auto) (machine [] 0x1000 0 0x100D 16 0) = [0, 0, 0, 13, 16, 16] := by decide

/-- Program P5: with no vector tier built, `encode v512` is fatal, and STATUS then reads 0x105. -/
theorem test_fatal_status :
    statusWord (nextOf (step (({ State.reset with cfg := { Config.default with v512 := false } } : State).withFetchWord
      32 0x520))).regs = 0x105 := by decide

/-- L1: a table word runs as the first command after reset. -/
theorem test_first_command :
    (nextOf (step (State.reset.withFetchWord 32 0x22))).regs.cmd = 0x22 := by decide

/-! ### Witnesses: the hypotheses of each statement of Certificates/Slice0/Obligations.lean can be met together -/

/-- A machine with the given next move. -/
def moving (m : HostMove) : State := { State.reset with pending := [m] }

/-- A machine with two units, unit 1 addressed last and its FATAL set, and the given next move. -/
def twoUnits (m : HostMove) : State :=
  { moving m with
    cfg := { Config.default with numUnits := 2 }, below := [Regs.reset]
    regs := { Regs.reset with err := 5, fatal := true } }

/-- A machine with the vector tiers not built. -/
def noTiers : State :=
  { State.reset with cfg := { Config.default with v64 := false, v128 := false, v256 := false, v512 := false } }

/-- A machine whose FATAL is set. -/
def fatalState : State := { State.reset with regs := { Regs.reset with err := 5, fatal := true } }

/-- `encblk 13` ready to run, with the given next move. -/
def readyBlock (m : HostMove) : State := { withSource count13 16 with pending := [m] }

theorem witness_DecodeInvertsEncode : (Instr.enctail 12 .v512).WellFormed ∧ (Instr.dectail 15 .v512).WellFormed := by
  decide
theorem witness_EncodeInvertsDecode : decode 0x0000C512 = .ok (.enctail 12 .v512) := by decide
theorem witness_LegalWordsAreTheTable :
    (∃ i, decode 0x00002510 = .ok i) ∧ ¬∃ i, decode 0x00003510 = .ok i :=
  ⟨⟨.encblk .four .v512, by decide⟩, fun ⟨i, h⟩ => by
    have e : decode 0x00003510 = .error .unitSize := by decide
    rw [e] at h; cases h⟩
theorem witness_IllegalWordsRaiseIllegalCommand :
    (∃ e, decode 0x0000D012 = .error e) ∧ (∃ e, decode 0x00000620 = .error e) ∧ State.reset.regs.fatal = false :=
  ⟨⟨.tailLength, by decide⟩, ⟨.tierCode, by decide⟩, rfl⟩
theorem witness_StepRunsTheDecodedCommand_move :
    ∃ s1, (twoUnits (.regWrite 0 0 0x820)).pending = [.regWrite 0 0 0x820] ∧
      focusUnit 0 (twoUnits (.regWrite 0 0 0x820)) = some s1 ∧
      decode ((0x820 : Dword).setWidth 32) = .ok (.encode true .auto) := ⟨_, rfl, rfl, by decide⟩
theorem witness_StepRunsTheDecodedCommand_word : decodeTableWord 32 0xF013 = some (.dectail 15 .auto) := by decide
theorem witness_FatalCommandsAreIgnored : fatalState.regs.fatal = true := rfl
theorem witness_RegisterWriteSetsOnlyItsRegister :
    (∃ s1, (twoUnits (.regWrite 0 0 1)).pending = [.regWrite 0 0 1] ∧ focusUnit 0 (twoUnits (.regWrite 0 0 1)) = some s1) ∧
    (∃ s1, (twoUnits (.regWrite 1 3 0x100000001)).pending = [.regWrite 1 3 0x100000001] ∧
      focusUnit 1 (twoUnits (.regWrite 1 3 0x100000001)) = some s1) ∧
    (∃ s1, (moving (.regWrite 0 15 1)).pending = [.regWrite 0 15 1] ∧ focusUnit 0 (moving (.regWrite 0 15 1)) = some s1) ∧
    currentUnit (twoUnits (.regWrite 0 0 1)) = 1 :=
  ⟨⟨_, rfl, rfl⟩, ⟨_, rfl, rfl⟩, ⟨_, rfl, rfl⟩, rfl⟩
theorem witness_RegisterReadGivesTheValue :
    (∃ s1, (moving (.regRead 0 15)).pending = [.regRead 0 15] ∧ focusUnit 0 (moving (.regRead 0 15)) = some s1) ∧
    (∃ s1, (twoUnits (.regRead 1 1)).pending = [.regRead 1 1] ∧ focusUnit 1 (twoUnits (.regRead 1 1)) = some s1) ∧
    (∃ s1, (twoUnits (.regRead 0 2)).pending = [.regRead 0 2] ∧ focusUnit 0 (twoUnits (.regRead 0 2)) = some s1) :=
  ⟨⟨_, rfl, rfl⟩, ⟨_, rfl, rfl⟩, ⟨_, rfl, rfl⟩⟩
theorem witness_HostMemoryWriteReadsBack :
    State.reset.mem.wf ∧ 0xFFFFFFFF + [(7 : Byte)].length ≤ 2 ^ State.reset.cfg.addrW ∧
    ({ State.reset with pending := [.memWrite 0xFFFFFFFF [7], .memRead 0xFFFFFFFF 1] } : State).pending =
      .memWrite 0xFFFFFFFF [7] :: .memRead 0xFFFFFFFF [(7 : Byte)].length :: [] := by decide
theorem witness_StepStopsOnlyWhereNothingExists_idle : State.reset.pending = [] := rfl
theorem witness_StepStopsOnlyWhereNothingExists_memory :
    0 < 2 ∧ 2 ^ (moving (.memRead 0xFFFFFFFF 2)).cfg.addrW < 0xFFFFFFFF + 2 ∧
    step (moving (.memRead 0xFFFFFFFF 2)) = .fault (.outsideBufferMemory 0x100000000) := ⟨by decide, by decide, rfl⟩
theorem witness_StepStopsOnlyWhereNothingExists_write :
    0 < [(1 : Byte), 2].length ∧ 2 ^ (moving (.memWrite 0xFFFFFFFF [1, 2])).cfg.addrW < 0xFFFFFFFF + [(1 : Byte), 2].length ∧
    step (moving (.memWrite 0xFFFFFFFF [1, 2])) = .fault (.outsideBufferMemory 0x100000000) := ⟨by decide, by decide, rfl⟩
theorem witness_StepStopsOnlyWhereNothingExists_touch :
    0 < (unitFiles (moving (.cmdContended 0 1 [.read 5, .read 0x100000000]))).length ∧
    (∃ x ∈ [Touch.read 5, .read 0x100000000], 2 ^ State.reset.cfg.addrW ≤ touchAddr x) ∧
    step (moving (.cmdContended 0 1 [.read 5, .read 0x100000000])) = .fault (.outsideBufferMemory 0x100000000) :=
  ⟨by decide, ⟨_, .tail _ (.head _), by decide⟩, rfl⟩
theorem witness_StepStopsOnlyWhereNothingExists_unit :
    moveUnit (.reset 1) = some 1 ∧ (unitFiles (moving (.reset 1))).length ≤ 1 ∧
    step (moving (.reset 1)) = .fault (.noSuchUnit 1) := ⟨rfl, by decide, rfl⟩
theorem witness_ResetGivesTheResetValues :
    (∃ s1, (twoUnits (.reset 1)).pending = [.reset 1] ∧ focusUnit 1 (twoUnits (.reset 1)) = some s1) ∧
    State.reset.regs = Regs.reset := ⟨⟨_, rfl, rfl⟩, rfl⟩
theorem witness_FatalIsClearedOnlyByReset :
    ∃ t r r', step (twoUnits (.reset 1)) = .next t ∧ (unitFiles (twoUnits (.reset 1)))[1]? = some r ∧
      (unitFiles t)[1]? = some r' ∧ r.fatal = true ∧ r'.fatal = false := ⟨_, _, _, rfl, rfl, rfl, rfl, rfl⟩
theorem witness_AbsentTierIsFatal :
    (Instr.encode false .v512).WellFormed ∧ noTiers.regs.fatal = false ∧ tierPresent noTiers.cfg .v512 = false ∧
    ∃ t, exec (.encode false .v512) noTiers = .next t ∧ t.regs.fatal = true := ⟨rfl, rfl, rfl, _, rfl, rfl⟩
theorem witness_ResetAbandonsTheHeldCommand :
    (∃ s1, (readyBlock (.cmdReset 0 0x10)).pending = [.cmdReset 0 0x10] ∧
      focusUnit 0 (readyBlock (.cmdReset 0 0x10)) = some s1) ∧
    (readyBlock (.cmdReset 0 0x10)).mem.wf ∧ writeRegionLen 0x10 (readyBlock (.cmdReset 0 0x10)) = 16 :=
  ⟨⟨_, rfl, rfl⟩, by decide, by decide⟩
theorem witness_DisturbedBytesAreUnspecified :
    (∃ s1, focusUnit 0 (readyBlock (.cmdContended 0 0x10 [.write 0x100C 9])) = some s1) ∧
    (∀ x ∈ [Touch.write 0x100C 9], touchAddr x < 2 ^ State.reset.cfg.addrW) ∧
    writeRegionLen 0x10 (readyBlock (.cmdContended 0 0x10 [.write 0x100C 9])) = 16 ∧
    Disturbed 0x10 (readyBlock (.cmdContended 0 0x10 [.write 0x100C 9])) [.write 0x100C 9] ∧
    ¬Disturbed 0x10 (readyBlock (.cmdContended 0 0x10 [.write 0x100C 9])) [.read 0x100C, .write 0x100D 9] := by
  have hr : readRegionLen 0x10 (readyBlock (.cmdContended 0 0x10 [.write 0x100C 9])) = 13 := by decide
  have hw : writeRegionLen 0x10 (readyBlock (.cmdContended 0 0x10 [.write 0x100C 9])) = 16 := by decide
  have hs : (readyBlock (.cmdContended 0 0x10 [.write 0x100C 9])).regs.srcAddr.toNat = 0x1000 := by decide
  have hd : (readyBlock (.cmdContended 0 0x10 [.write 0x100C 9])).regs.dstAddr.toNat = 0x2000 := by decide
  refine ⟨⟨_, rfl⟩, by decide, hw, ⟨.write 0x100C 9, by simp, .inr ?_⟩, ?_⟩
  · rw [hr, hs]; exact ⟨⟨9, rfl⟩, by decide, by decide⟩
  · rintro ⟨x, hx, h⟩
    rw [hr, hw, hs, hd] at h
    simp only [List.mem_cons, List.not_mem_nil, or_false] at hx
    rcases hx with rfl | rfl <;> simp [touchAddr] at h
theorem witness_DisturbedBytesAreUnspecified_replies :
    [Touch.write 0x100D 9, .read 0x100D, .read 0x200F] = [.write 0x100D 9] ++ .read 0x100D :: [.read 0x200F] ∧
    [Touch.write 0x100D 9, .read 0x100D, .read 0x200F] = [.write 0x100D 9, .read 0x100D] ++ .read 0x200F :: [] ∧
    (0x2000 ≤ 0x200F ∧ 0x200F < 0x2000 + writeRegionLen 0x10 (withSource count13 16)) ∧ 0x100D < 0x2000 ∧
    byteAfterTouches 0x100D (memByte (withSource count13 16).mem 0x100D) [.write 0x100D 9] = 9 := by decide
theorem witness_UnitsShareOnlyTheMemory :
    ∃ t, step (twoUnits (.regWrite 0 7 5)) = .next t ∧ moveUnit (.regWrite 0 7 5) ≠ some 1 := ⟨_, rfl, by decide⟩
theorem witness_ResultBankIsRewritten : (withOpa 255).regs.fatal = false := rfl
theorem witness_CommandsChangeOnlyBankAndMemory :
    ∃ t, exec .validate (withOpa 255) = .next t ∧ writesMemory .validate = false := ⟨_, rfl, rfl⟩
theorem witness_CommandsWriteExactlyTheWriteRegion :
    (∃ t, exec (.encblk .one .auto) (withSource count13 16) = .next t ∧ t.regs.err = 0) ∧
    (∃ t, exec (.encblk .one .auto) (withSource count13 15) = .next t ∧ t.regs.err ≠ 0) ∧
    writesMemory (.encblk .one .auto) = true ∧ (withSource count13 16).mem.wf :=
  ⟨⟨_, rfl, by decide⟩, ⟨_, rfl, by decide⟩, rfl, by decide⟩
theorem witness_CommandsReadOnlyTheReadRegion :
    (∀ a, (withSource count13 16).regs.srcAddr.toNat ≤ a →
      a < (withSource count13 16).regs.srcAddr.toNat + inputLen (.encblk .one .auto) (withSource count13 16) →
      memByte (memSetByte (withSource count13 16).mem 0x100D 9) a = memByte (withSource count13 16).mem a) ∧
    memByte (memSetByte (withSource count13 16).mem 0x100D 9) 0x100D ≠ memByte (withSource count13 16).mem 0x100D ∧
    Memory.wf (memSetByte (withSource count13 16).mem 0x100D 9) := by
  have hs : (withSource count13 16).regs.srcAddr.toNat = 0x1000 := by decide
  have hi : inputLen (.encblk .one .auto) (withSource count13 16) = 13 := by decide
  refine ⟨?_, by decide, by decide⟩
  rw [hs, hi]
  intro a h1 h2
  interval_cases a <;> decide
theorem witness_TierChangesNoResult :
    tierPresent State.reset.cfg .v64 = true ∧ tierPresent State.reset.cfg (tierOf (.decode true .v512)) = true := by decide
theorem witness_ErrorsFollowThePriority :
    fatalState.regs.fatal = true ∧ (withSource count13 15).regs.fatal = false ∧
    decode 0x0000D012 = .error .tailLength ∧
    firstError (.encblk .one .auto) (withSource count13 15) = .destTooShort ∧
    firstError (.encblk .one .auto) (withSource count13 16) = .ok := by decide
theorem witness_OnlyWord : (0x00000001 : Word).toNat % 256 = 1 ∧ (0x00000101 : Word).toNat % 256 = 1 := by decide
theorem witness_Div91Divides : (withOpa 8191).regs.fatal = false := rfl
theorem witness_EncpairGivesTheSymbols : (withOpa 5187).regs.fatal = false := rfl
theorem witness_DecpairGivesTheValue : (withOpa 0x7D7D).regs.fatal = false := rfl
theorem witness_DigencGivesTheSymbol : (withOpa 57).regs.fatal = false ∧ (withOpa 57).regs.opa.toNat % 256 + 0x23 = 0x5C := by
  decide
theorem witness_DigdecGivesTheDigit :
    (withOpa 0x7E).regs.fatal = false ∧ (withOpa 0x7E).regs.opa.toNat % 256 - 0x23 = 91 := by decide
theorem witness_SplitSpreadsTheGroups : (withOpa 0xFFFFFFFFFFFFFFFF).regs.fatal = false ∧ 3 < 4 := by decide
theorem witness_MergePacksTheLanes : (withOpa 0xE000E000E000E000).regs.fatal = false ∧ 3 < 4 := by decide
theorem witness_EnclenGivesTheLength :
    ((withOpa 0xFFFFFFFF).regs.opa.setWidth 32).toInt = -1 ∧
    ((withOpa 1744830464).regs.opa.setWidth 32).toInt = 1744830464 ∧ (withOpa 1744830464).cfg.maxEncLen = 1744830463 ∧
    ((withOpa 1744830463).regs.opa.setWidth 32).toInt = 1744830463 := by decide
theorem witness_DeclenGivesTheLength :
    ((withOpa 0x80000000).regs.opa.setWidth 32).toInt = -2147483648 ∧
    ((withOpa 11).regs.opa.setWidth 32).toInt = 11 ∧ 11 % 16 ∈ [1, 6, 11] ∧
    ((withOpa 2147483647).regs.opa.setWidth 32).toInt = 2147483647 ∧ 2147483647 % 16 ∉ [1, 6, 11] := by decide
theorem witness_ValidateChecksTheText :
    (machine [] 0 0x80000000 0 0 0).regs.srcLen.toInt < 0 ∧
    2 ^ 32 < (machine [] 0xFFFFFFFF 2 0 0 0).regs.srcAddr.toNat + (machine [] 0xFFFFFFFF 2 0 0 0).regs.srcLen.toNat ∧
    (machine [] 0xFFFFFFFE 2 0 0 0).regs.srcAddr.toNat + (machine [] 0xFFFFFFFE 2 0 0 0).regs.srcLen.toNat ≤ 2 ^ 32 := by
  decide
theorem witness_BlockCommandsComplete :
    Fits (withSource count13 16) (13 * unitBlocks .one) (16 * unitBlocks .one) ∧
    Fits (withSource text16 13) (16 * unitBlocks .one) (13 * unitBlocks .one) ∧
    tierPresent State.reset.cfg .v512 = true := by decide
theorem witness_TailCommandsComplete :
    (12 : BitVec 4).toNat ≤ 12 ∧ Fits (withSource [1, 2, 3, 4, 5, 6, 7, 8, 9, 10, 11, 12] 15) 12 (encT 12) ∧
    encT 12 = (15 : BitVec 4).toNat ∧ Fits (machine [] 0x1000 0 0x2000 12 0) 15 12 ∧
    Fits (machine [] 0 0 0 0 0) 0 (encT 0) := by decide
theorem witness_EncodeCompletes :
    (withSource count13 16).regs.srcLen.toInt = (13 : Nat) ∧ 13 ≤ (withSource count13 16).cfg.maxEncLen ∧
    Fits (withSource count13 16) 13 (encLen 13) ∧ Fits (withSource count13 16) (13 * (13 / 13)) (16 * (13 / 13)) := by
  decide
theorem witness_DecodeCompletes :
    (withSource text16 13).regs.srcLen.toInt = (16 : Nat) ∧ decLen 16 = some 13 ∧ Fits (withSource text16 13) 16 13 ∧
    (machine [] 0x1000 17 0x2000 13 0).regs.srcLen.toInt = (17 : Nat) ∧
    Fits (machine [] 0x1000 17 0x2000 13 0) (16 * (17 / 16)) (13 * (17 / 16)) := by decide
theorem witness_Div91IsExact : 8191 < 8192 ∧ 9735 < 9736 := by decide
theorem witness_SymbolsAndDigitsAgree : (90 : Byte).toNat ≤ 90 ∧ inAlpha 0x7E = true ∧ inAlpha 0x5C = false := by decide
theorem witness_PairsRoundTrip :
    inAlpha 0x25 = true ∧ inAlpha 0x7D = true ∧ 8191 < (decPair 0x25 0x7D).2 ∧ ¬8191 < (decPair 0x24 0x7D).2 := by decide
theorem witness_SplitAndMergeAreInverse : 0xFFFFFFFFFFFFFFFF < 2 ^ 64 := by decide
theorem witness_DepositAndExtractAreSplitAndMerge : 0xE000E000E000E000 < 2 ^ 64 := by decide
theorem witness_TwoWordFormGivesTheGroups : count13.length = 13 ∧ 7 < 8 := by decide
theorem witness_BlockTextIsTheGroups : count13.length = 13 ∧ 7 < 8 := by decide
theorem witness_BlockBytesAreThePairValues :
    text16.length = 16 ∧ ∃ lane : Nat → Nat, ∀ i, lane i =
      (dig (text16.getD (2 * i) 0)).toNat + 91 * (dig (text16.getD (2 * i + 1) 0)).toNat := ⟨rfl, _, fun _ => rfl⟩
theorem witness_BlocksRoundTrip :
    count13.length = 13 ∧ (count13 ++ count13).length = 13 * unitBlocks .two ∧
    (∀ i, i < 8 → inAlpha (text16.getD (2 * i) 0) = true ∧ inAlpha (text16.getD (2 * i + 1) 0) = true ∧
      (decPair (text16.getD (2 * i) 0) (text16.getD (2 * i + 1) 0)).2 ≤ 8191) := by decide
theorem witness_TailTablesAreConsistent : decT 15 = some 12 ∧ decT 11 = none := by decide
theorem witness_DroppedTailSymbolsAreZeroDigits : ([0xFF, 0xFF] : List Byte).length ≤ 12 := by decide
theorem witness_TailsRoundTrip : (count13.take 12).length ≤ 12 := by decide
theorem witness_TailsAreTheGroupsOfThePaddedBlock :
    (count13.take 12).length ≤ 12 ∧ 14 < encT (count13.take 12).length ∧ encT 12 = (text16.take 15).length ∧ encT 0 = 0 ∧
    ∃ lane : Nat → Nat, ∀ i, lane i =
      (dig ((text16.take 15).getD (2 * i) 0x23)).toNat + 91 * (dig ((text16.take 15).getD (2 * i + 1) 0x23)).toNat :=
  ⟨by decide, by decide, by decide, by decide, _, fun _ => rfl⟩
theorem witness_UnitsAndStreamsAreTheBlocksInOrder :
    (count13 ++ count13).length = 13 * unitBlocks .two ∧ 1 < unitBlocks .two ∧
    (text16 ++ text16).length = 16 * unitBlocks .two ∧ 1 < (count13 ++ count13).length / 13 ∧
    (text16 ++ [0x23, 0x24]).length % 16 ∉ [1, 6, 11] ∧ 0 < (text16 ++ [0x23, 0x24]).length / 16 := by decide
theorem witness_LengthsRoundTrip : decLen 18 = some 14 := by decide
theorem witness_MaximumLengthIsTheLargest : 2147483647 ≤ 2 ^ 31 - 1 ∧ decLen 2147483647 = some 1744830463 := by decide
theorem witness_StreamingEqualsOneCall : 5 ≤ count13.length ∧ 13 ≤ count13.length ∧ 16 ≤ text16.length := by decide
theorem witness_EncodeThenDecodeRestoresTheInput :
    ∃ t t', exec (.encode true .auto) (withSource count13 16) = .next t ∧ t.regs.err = 0 ∧
      exec (.decode true .auto)
        { t with regs := { t.regs with
          srcAddr := t.regs.dstAddr, srcLen := t.regs.written, dstAddr := 0x3000, dstCap := 13 } } = .next t' ∧
      t'.regs.err = 0 := ⟨_, _, rfl, by decide, rfl, by decide +kernel⟩
theorem witness_StepKeepsTheInvariant :
    ∃ t, (readyBlock (.regWrite 0 0 0x10)).Inv ∧ step (readyBlock (.regWrite 0 0 0x10)) = .next t :=
  ⟨_, by decide, rfl⟩

end Sys2Proof.Tests
end

/-! PROOFS. The byte lists of spec/00_scope.md R8 and their bit order (spec/20_memory.md R52), and the machine right after
reset (R5, R20, R240). -/

namespace Sys2Proof.Machine

/-! ### Byte lists and their numbers (R8) -/

@[simp] theorem le_nil : le [] = 0 := rfl

theorem le_cons (b : Byte) (bs : List Byte) : le (b :: bs) = 2 ^ 8 * le bs + b.toNat := Nat.add_comm _ _

@[simp] theorem leBytes_zero (v : Nat) : leBytes v 0 = [] := rfl

theorem leBytes_succ (v n : Nat) : leBytes v (n + 1) = BitVec.ofNat 8 v :: leBytes (v / 2 ^ 8) n := rfl

/-- The first 8 bits of the stream are the first byte, and the rest are the stream of the other bytes. -/
theorem testBit_le_cons (b : Byte) (bs : List Byte) (k : Nat) :
    (le (b :: bs)).testBit k = if k < 8 then b.getLsbD k else (le bs).testBit (k - 8) := by
  rw [le_cons, Nat.testBit_two_pow_mul_add _ b.isLt]
  rfl

/-- R52: bit k of the stream is bit k mod 8 of byte k div 8. -/
theorem testBit_le (bs : List Byte) (k : Nat) : (le bs).testBit k = (bs.getD (k / 8) 0).getLsbD (k % 8) := by
  induction bs generalizing k with
  | nil => simp
  | cons b bs ih =>
    rw [testBit_le_cons]
    split
    case isTrue h => rw [Nat.div_eq_of_lt h, Nat.mod_eq_of_lt h, List.getD_cons_zero]
    case isFalse h =>
      have hdiv : k / 8 = (k - 8) / 8 + 1 := by omega
      have hmod : k % 8 = (k - 8) % 8 := by omega
      rw [ih, hdiv, hmod, List.getD_cons_succ]

/-- LEbytes undoes LE on a list of its length. -/
@[simp] theorem leBytes_le (bs : List Byte) : leBytes (le bs) bs.length = bs := by
  induction bs with
  | nil => rfl
  | cons b bs ih =>
    have hhead : BitVec.ofNat 8 (le (b :: bs)) = b :=
      BitVec.eq_of_toNat_eq (by rw [le_cons, BitVec.toNat_ofNat, Nat.mul_add_mod, Nat.mod_eq_of_lt b.isLt])
    have htail : le (b :: bs) / 2 ^ 8 = le bs := by
      rw [le_cons, Nat.mul_add_div (by decide), Nat.div_eq_of_lt b.isLt, Nat.add_zero]
    rw [List.length_cons, leBytes_succ, hhead, htail, ih]

/-- LE of n bytes of a number is the number modulo 2^(8n). -/
@[simp] theorem le_leBytes (v n : Nat) : le (leBytes v n) = v % 2 ^ (8 * n) := by
  induction n generalizing v with
  | zero => simp [Nat.mod_one]
  | succ n ih =>
    calc le (leBytes v (n + 1))
        = 2 ^ 8 * (v / 2 ^ 8 % 2 ^ (8 * n)) + v % 2 ^ 8 := by rw [leBytes_succ, le_cons, ih, BitVec.toNat_ofNat]
      _ = v % (2 ^ 8 * 2 ^ (8 * n)) := by rw [Nat.mod_mul, Nat.add_comm]
      _ = v % 2 ^ (8 * (n + 1)) := by rw [← Nat.pow_add, Nat.mul_succ, Nat.add_comm 8]

/-- Settles O44, by induction on the byte list and on the number of bytes. -/
theorem streamBitsAreLittleEndian : Obligations.StreamBitsAreLittleEndian :=
  ⟨testBit_le, leBytes_le, le_leBytes⟩

/-! ### The machine right after reset (R240) -/

/-- The parameters' defaults are legal (R5). -/
theorem default_legal : Config.default.Legal := by decide

/-- The unit that is built at the defaults is in focus, and no other. -/
@[simp] theorem unitFiles_reset : unitFiles State.reset = [Regs.reset] := rfl

/-- A register file at its reset values (R20) meets the conditions of the invariant, whatever the address width: ERR is 0,
FATAL is clear, and all else is zero. -/
theorem regsOk_reset (c : Config) : RegsOk c Regs.reset := by
  have hspace : 0 < spaceSize c := Nat.two_pow_pos _
  simp [Regs.reset, hspace]

/-- Settles O57: one unit at its reset values, the default parameters, and nothing listed in memory. -/
theorem resetStateMeetsTheInvariant : Obligations.ResetStateMeetsTheInvariant := by
  refine ⟨default_legal, rfl, reset_mem_wf, fun _ h => absurd h List.not_mem_nil, fun r hr => ?_⟩
  obtain rfl : r = Regs.reset := by simpa using hr
  exact regsOk_reset _

end Sys2Proof.Machine

/-! PROOFS. The frame of the commands, and the host's register accesses and reset (spec/10_state.md R20, R21, R35, R36,
R39, spec/70_reset_and_hazards.md R240). -/

namespace Sys2Proof.Machine

/-! ### The frame of a command (R39, R50, R214) -/

/-- However a command ends, only the result bank, FATAL and, for a writing command, the memory differ. -/
theorem Ending.frame {i : Instr} {s t : State} (h : Ending i s t) :
    t = { s with
      mem := t.mem
      regs := { s.regs with
        err := t.regs.err, fatal := t.regs.fatal, res0 := t.regs.res0, res1 := t.regs.res1,
        consumed := t.regs.consumed, written := t.regs.written, required := t.regs.required } } ∧
    (writesMemory i = false → t.mem = s.mem) := by
  cases h with
  | ignored | short | error | fatal | done => exact ⟨rfl, fun _ => rfl⟩
  | wrote _ hw => exact ⟨rfl, fun hn => by simp [hw] at hn⟩

/-- Settles O19, by the ways a command can end. -/
theorem commandsChangeOnlyBankAndMemory : Obligations.CommandsChangeOnlyBankAndMemory :=
  fun _ _ _ h => (exec_ending h).frame

/-! ### The step and the unit its move addresses -/

/-- Bringing a unit into focus changes no parameter (R5). -/
theorem focusUnit_cfg {u : Nat} {s s1 : State} (h : focusUnit u s = some s1) : s1.cfg = s.cfg := by
  obtain ⟨-, -, -, he⟩ := focusUnit_eq_some h
  rw [he]

/-- A step takes the next move, and the replies of the last one are gone. -/
theorem step_of_pending {s : State} {m : HostMove} {rest : List HostMove} (h : s.pending = m :: rest) :
    step s = performMove m { s with pending := rest, replies := [] } := by
  rw [step, nextMove, h]

/-- The step of a move that is addressed to a built unit does what the move says with that unit in focus. -/
theorem step_onUnit {s s1 : State} {u : Nat} {m : HostMove} {rest : List HostMove}
    {f : State → Host.Outcome State Fault Refusal} (hp : s.pending = m :: rest) (hm : performMove m = onUnit u f)
    (hu : focusUnit u s = some s1) : step s = f { s1 with pending := rest, replies := [] } := by
  rw [step_of_pending hp, hm, onUnit, focusUnit_withMoves hu]

/-- `s` with the word `w` in CMD (R21). -/
abbrev storeCmd (w : Word) (s : State) : State := { s with regs := { s.regs with cmd := w } }

/-- A legal word runs its command after CMD has taken it (R84). -/
theorem executeWord_of_decode {w : Word} {i : Instr} (h : decode w = .ok i) (s : State) :
    executeWord w s = exec i (storeCmd w s) := by
  rw [executeWord, h]

/-- An illegal word goes through the guard alone (R79, R84). -/
theorem executeWord_of_illegal {w : Word} {e : Illegal} (h : decode w = .error e) (s : State) :
    executeWord w s = .next (guarded false .auto id (storeCmd w s)) := by
  rw [executeWord, h]

/-- The step of a write to CMD executes the low half of the value on the addressed unit (R21). -/
theorem step_writeCmd {s s1 : State} {u : Nat} {v : Dword} {rest : List HostMove}
    (hp : s.pending = .regWrite u 0 v :: rest) (hu : focusUnit u s = some s1) :
    step s = executeWord (v.setWidth 32) { s1 with pending := rest, replies := [] } := by
  rw [step_onUnit hp rfl hu, hostRegWrite, if_pos (by rfl)]

/-- What the decoder reads from a table word is what it decodes the word's low 32 bits to. -/
theorem decode_of_decodeTableWord {w : Nat} {i : Instr} (h : decodeTableWord 32 w = some i) :
    decode (BitVec.ofNat 32 w) = .ok i := by
  have hw : BitVec.ofNat 32 (w % 2 ^ 32) = BitVec.ofNat 32 w := BitVec.eq_of_toNat_eq (by simp)
  rw [decodeTableWord, hw] at h
  cases hd : decode (BitVec.ofNat 32 w) with
  | ok j => rw [hd] at h; cases h; rfl
  | error e => rw [hd] at h; cases h

/-- A placed word is executed by the very next step. -/
theorem step_withFetchWord (s : State) (w : Nat) :
    step (s.withFetchWord 32 w) = executeWord (BitVec.ofNat 32 w) { s with replies := [] } := by
  have hw : ((BitVec.ofNat 32 (w % 2 ^ 32)).setWidth 64).setWidth 32 = BitVec.ofNat 32 w :=
    BitVec.eq_of_toNat_eq (by simp)
  have hu : focusUnit (currentUnit s) (s.withFetchWord 32 w) = some (s.withFetchWord 32 w) :=
    focusUnit_current (s.withFetchWord 32 w)
  rw [step_writeCmd rfl hu, hw]
  rfl

/-- Settles O6: the move is taken on its unit, and the word decides between `exec` and the illegal case. -/
theorem stepRunsTheDecodedCommand : Obligations.StepRunsTheDecodedCommand := by
  refine ⟨fun _ _ _ _ _ => step_writeCmd, fun s _ _ h => executeWord_of_decode h s, focusUnit_current, ?_⟩
  intro s w i h
  rw [step_withFetchWord, executeWord_of_decode (decode_of_decodeTableWord h)]

/-! ### Register values as numbers (R20, R36) -/

/-- The numbers the host reads at the sixteen indices of R20: STATUS and CAPS by their layouts (R22, R23), and 0 at
the three reserved ones. -/
def regNumbers (c : Config) (r : Regs) : Vector Nat 16 :=
  #v[r.cmd.toNat, r.err.toNat + 256 * r.fatal.toNat,
    1 + 2 * c.v64.toNat + 4 * c.v128.toNat + 8 * c.v256.toNat + 16 * c.v512.toNat,
    r.srcAddr.toNat, r.srcLen.toNat, r.dstAddr.toNat, r.dstCap.toNat, r.opa.toNat,
    r.res0.toNat, r.res1.toNat, r.consumed.toNat, r.written.toNat, r.required.toNat, 0, 0, 0]

/-- STATUS is ERR with FATAL at bit 8 (R22). -/
theorem toNat_statusWord (r : Regs) : (statusWord r).toNat = r.err.toNat + 256 * r.fatal.toNat := by
  have hlow : r.err.toNat < 2 ^ 4 := r.err.isLt
  simp only [statusWord, BitVec.toNat_append, ← Nat.shiftLeft_add_eq_or_of_lt hlow, BitVec.toNat_ofNat,
    BitVec.toNat_ofBool]
  simp [Nat.shiftLeft_eq]
  omega

/-- CAPS is 1 with the vector tiers at bits 1 to 4 (R23). -/
theorem toNat_capsWord (c : Config) :
    (capsWord c).toNat = 1 + 2 * c.v64.toNat + 4 * c.v128.toNat + 8 * c.v256.toNat + 16 * c.v512.toNat := by
  unfold capsWord
  cases c.v64 <;> cases c.v128 <;> cases c.v256 <;> cases c.v512 <;> rfl

/-- A read gives the number at its index (R36). -/
theorem toNat_regRead (c : Config) (r : Regs) (i : Fin 16) : (regRead c r i).toNat = (regNumbers c r)[i.val] := by
  have hwide (w : Word) : (w.setWidth 64).toNat = w.toNat := BitVec.toNat_setWidth_of_le (by decide)
  fin_cases i <;> simp [regRead, regNumbers, hwide, toNat_statusWord, toNat_capsWord]

/-- Settles O9: a read hands back the number at its index. -/
theorem registerReadGivesTheValue : Obligations.RegisterReadGivesTheValue := by
  intro s s1 u i rest hp hu
  have hval : regRead s1.cfg s1.regs i = BitVec.ofNat 64 (regNumbers s.cfg s1.regs)[i.val] := by
    rw [← toNat_regRead, focusUnit_cfg hu]; simp
  rw [step_onUnit hp rfl hu, hostRegRead]
  dsimp only
  rw [hval]
  fin_cases i <;> rfl

/-! ### Writing a register (R35) -/

/-- An address register takes the value modulo the size of the address space (R24, R26). -/
theorem toNat_truncAddr (c : Config) (v : Dword) : (truncAddr c v).toNat = v.toNat % spaceSize c := by
  have hle : v.toNat % spaceSize c ≤ v.toNat := Nat.mod_le _ _
  rw [truncAddr, BitVec.toNat_ofNat, Nat.mod_eq_of_lt (by omega)]

/-- A register write leaves FATAL as it is. -/
@[simp] theorem regWrite_fatal (c : Config) (r : Regs) (i : Fin 16) (v : Dword) :
    (regWrite c r i v).fatal = r.fatal := by
  unfold regWrite; split <;> rfl

/-- A register write leaves ERR as it is. -/
@[simp] theorem regWrite_err (c : Config) (r : Regs) (i : Fin 16) (v : Dword) : (regWrite c r i v).err = r.err := by
  unfold regWrite; split <;> rfl

/-- What index `i` reads as after a write of `v` to it: the value reduced to the width of an operand register, and
what it read as before at every other index (R35). -/
def storedNumber (c : Config) (r : Regs) (i : Fin 16) (v : Dword) : Nat :=
  if i = 3 ∨ i = 5 then v.toNat % 2 ^ c.addrW
  else if i = 4 ∨ i = 6 then v.toNat % 2 ^ 32
  else if i = 7 then v.toNat
  else (regRead c r i).toNat

/-- A write to an index but CMD replaces the number at that index and no other. -/
theorem regNumbers_regWrite (c : Config) (r : Regs) {i : Fin 16} (hi : i ≠ 0) (v : Dword) :
    regNumbers c (regWrite c r i v) = (regNumbers c r).set i.val (storedNumber c r i v) i.isLt := by
  fin_cases i <;> simp [regWrite, regNumbers, storedNumber, toNat_truncAddr, spaceSize, toNat_regRead] at hi ⊢

/-- After a write to an index but CMD every other index reads as before, and the written one as `storedNumber` says. -/
theorem toNat_regRead_regWrite (c : Config) (r : Regs) {i : Fin 16} (hi : i ≠ 0) (v : Dword) (j : Fin 16) :
    (regRead c (regWrite c r i v) j).toNat = if j ≠ i then (regRead c r j).toNat else storedNumber c r i v := by
  simp only [toNat_regRead, regNumbers_regWrite c r hi, Vector.getElem_set, ne_eq, ite_not, Fin.ext_iff, eq_comm]

/-- Settles O8: a write to CMD executes its word; any other replaces one number of the register file. -/
theorem registerWriteSetsOnlyItsRegister : Obligations.RegisterWriteSetsOnlyItsRegister := by
  intro s s1 u i v rest hp hu
  refine ⟨fun hi => ?_, fun hi => ⟨regWrite s.cfg s1.regs i v, ?_, ?_, ?_, fun j => ?_⟩⟩
  · subst hi
    exact step_writeCmd hp hu
  · have hi' : i.val ≠ 0 := fun h => hi (Fin.ext h)
    rw [step_onUnit hp rfl hu, hostRegWrite, if_neg hi', focusUnit_cfg hu]
  · exact regWrite_fatal _ _ _ _
  · exact regWrite_err _ _ _ _
  · exact toNat_regRead_regWrite s.cfg s1.regs hi v j

/-! ### Reset (R240) -/

/-- Every index but CAPS reads 0 after reset (R20). -/
theorem regRead_reset (c : Config) {j : Fin 16} (hj : j ≠ 2) : regRead c Regs.reset j = 0 := by
  unfold regRead
  split
  case h_3 h => exact absurd (Fin.ext h) hj
  all_goals rfl

/-- CAPS reads the same whatever the registers hold (R23). -/
theorem regRead_caps (c : Config) (r r' : Regs) : regRead c r 2 = regRead c r' 2 := rfl

/-- An illegal word that is not ignored raises ILLEGAL_COMMAND (R79). -/
theorem executeWord_of_illegal_of_not_fatal {w : Word} {e : Illegal} (h : decode w = .error e) {s : State}
    (hf : s.regs.fatal = false) : executeWord w s = .next (raise .illegalCommand 0 (storeCmd w s)) := by
  rw [executeWord_of_illegal h, guarded, if_neg (by simp [hf]), if_pos rfl]

/-- Settles O12: the register file becomes `Regs.reset`, and OP 0 is no operation. -/
theorem resetGivesTheResetValues : Obligations.ResetGivesTheResetValues := by
  refine ⟨fun s s1 u rest hp hu => ⟨Regs.reset, ?_, rfl, rfl, fun j => regRead_reset _,
    regRead_caps _ _ _⟩, fun j => regRead_reset _, rfl, ?_⟩
  · rw [step_onUnit hp rfl hu]; rfl
  · intro s hs
    have hf : s.regs.fatal = false := by rw [hs]; rfl
    have hd : decode 0 = .error .operation := by decide
    exact ⟨_, executeWord_of_illegal_of_not_fatal hd hf, rfl⟩

end Sys2Proof.Machine

/-! PROOFS. Every step keeps the invariant of the machine (spec/10_state.md R22, R24, R26, R33, spec/20_memory.md
R50). -/

namespace Sys2Proof.Machine

/-! ### The memory part of the invariant (R50) -/

/-- The memory is canonical and lists no byte outside the address space. -/
def MemOk (c : Config) (m : Memory) : Prop := m.wf ∧ ∀ cell ∈ m, cell.1 < spaceSize c

/-- Writing a byte of the address space keeps the memory in order. -/
theorem MemOk.setByte {c : Config} {m : Memory} (h : MemOk c m) {a : Nat} (ha : a < spaceSize c) (b : Byte) :
    MemOk c (memSetByte m a b) := by
  refine ⟨memSetByte_wf h.1 a b, fun cell hc => ?_⟩
  rcases mem_memSetByte hc with rfl | hc
  · exact ha
  · exact h.2 cell hc

/-- So does writing a region that ends inside the address space. -/
theorem MemOk.write {c : Config} {m : Memory} (h : MemOk c m) {a : Nat} {bs : List Byte}
    (ha : a + bs.length ≤ spaceSize c) : MemOk c (memWrite m a bs) := by
  refine ⟨memWrite_wf h.1 a bs, fun cell hc => ?_⟩
  rcases mem_memWrite hc with ⟨-, hlt⟩ | hc
  · omega
  · exact h.2 cell hc

/-- So do touches that reach no byte outside it. -/
theorem MemOk.touches {addr n : Nat} {touches : List Touch} {s : State} (h : MemOk s.cfg s.mem)
    (ht : ∀ x ∈ touches, touchAddr x < spaceSize s.cfg) :
    MemOk s.cfg (touches.foldl (doTouch addr n) s).mem := by
  induction touches generalizing s with
  | nil => exact h
  | cons x touches ih =>
    have hcfg : (doTouch addr n s x).cfg = s.cfg := by rw [doTouch_eq]
    have hx : touchAddr x < spaceSize s.cfg := ht x List.mem_cons_self
    have hmem : MemOk s.cfg (doTouch addr n s x).mem := by
      cases x with
      | read a => simp only [doTouch]; split <;> exact h
      | write a b =>
        simp only [doTouch]
        split
        · exact h
        · exact h.setByte hx b
    rw [← hcfg] at hmem ⊢
    exact ih hmem fun y hy => hcfg ▸ ht y (List.mem_cons_of_mem x hy)

/-! ### The register part of the invariant -/

/-- A host write keeps a register file in order: addresses are cut to ADDR_W (R24, R26) and the bank stays. -/
theorem regsOk_regWrite {c : Config} {r : Regs} (h : RegsOk c r) (i : Fin 16) (v : Dword) :
    RegsOk c (regWrite c r i v) := by
  have haddr : (truncAddr c v).toNat < spaceSize c := by
    rw [toNat_truncAddr]
    exact Nat.mod_lt _ (Nat.two_pow_pos _)
  obtain ⟨hsrc, hdst, hbank⟩ := h
  unfold regWrite
  split
  case h_2 => exact ⟨haddr, hdst, hbank⟩
  case h_4 => exact ⟨hsrc, haddr, hbank⟩
  all_goals exact ⟨hsrc, hdst, hbank⟩

/-- Error codes are at most 8 (R211). -/
theorem errNumber_le (e : ErrCode) : (errNumber e).toNat ≤ 8 := by cases e <;> decide

/-- Only the absence of an error has code 0 (R211). -/
theorem errNumber_eq_zero {e : ErrCode} : errNumber e = 0 ↔ e = .ok := by cases e <;> decide

/-- Only DEST_TOO_SHORT has code 1 (R211). -/
theorem errNumber_eq_one {e : ErrCode} : errNumber e = 1 ↔ e = .destTooShort := by cases e <;> decide

/-- Every other error ends with another code than DEST_TOO_SHORT. -/
theorem raise_err_ne_one {e : ErrCode} (h : e ≠ .destTooShort) {q : Nat} {s : State} :
    (raise e q s).regs.err ≠ 1 := fun h1 => h (errNumber_eq_one.mp h1)

/-- A number below 2^31 is its 32-bit register value. -/
theorem toNat_ofNat_length {n : Nat} (h : n < 2 ^ 31) : (BitVec.ofNat 32 n).toNat = n := Nat.mod_eq_of_lt (by omega)

/-- An error leaves the registers in order, REQUIRED being a length after DEST_TOO_SHORT and 0 after any other
(R33, R215). -/
theorem regsOk_raise {s : State} (h : RegsOk s.cfg s.regs) (hf : s.regs.fatal = false) {e : ErrCode} (h0 : e ≠ .ok)
    {q : Nat} (hq : q ≠ 0 ↔ e = .destTooShort) (hlt : q < 2 ^ 31) : RegsOk s.cfg (raise e q s).regs := by
  obtain ⟨hsrc, hdst, -⟩ := h
  have hq' : BitVec.ofNat 32 q = 0 ↔ e ≠ .destTooShort := by
    rw [ne_eq, ← hq, not_not, ← BitVec.toNat_inj, toNat_ofNat_length hlt]; rfl
  refine ⟨hsrc, hdst, errNumber_le e, fun ht => ?_, fun _ => ⟨rfl, rfl, rfl, rfl⟩, fun _ h1 => ?_, fun h1 => ?_,
    fun hok => absurd (errNumber_eq_zero.mp hok) h0, Nat.two_pow_pos _, Nat.two_pow_pos _, ?_⟩
  · rw [raise_fatal, hf] at ht; cases ht
  · exact hq'.mpr fun he => h1 (errNumber_eq_one.mpr he)
  · exact fun hz => hq'.mp hz (errNumber_eq_one.mp h1)
  · rw [raise_required, toNat_ofNat_length hlt]; exact hlt

/-- The fatal error leaves the registers in order (R213). -/
theorem regsOk_raiseFatal {s : State} (h : RegsOk s.cfg s.regs) : RegsOk s.cfg (raiseFatal s).regs := by
  obtain ⟨hsrc, hdst, -⟩ := h
  simp [RegsOk, hsrc, hdst]

/-- A completed command leaves the registers in order, REQUIRED being WRITTEN (R33, R216). -/
theorem regsOk_complete {s : State} (h : RegsOk s.cfg s.regs) (hf : s.regs.fatal = false) (a b : Nat) {n k : Nat}
    (hn : n < 2 ^ 31) (hk : k < 2 ^ 31) : RegsOk s.cfg (complete a b n k k s).regs := by
  obtain ⟨hsrc, hdst, -⟩ := h
  have hn' := toNat_ofNat_length hn
  have hk' := toNat_ofNat_length hk
  have hne : (0 : BitVec 4) ≠ 1 := by decide
  refine ⟨hsrc, hdst, Nat.zero_le _, fun ht => ?_, fun h0 => absurd rfl h0, fun h0 => absurd rfl h0,
    fun h1 => absurd h1 hne, fun _ => rfl, ?_, ?_, ?_⟩
  · rw [complete_fatal, hf] at ht; cases ht
  · rw [complete_consumed, hn']; exact hn
  · rw [complete_written, hk']; exact hk
  · rw [complete_required, hk']; exact hk

/-! ### Lengths that DEST_TOO_SHORT reports (R33) -/

/-- The encoded length of at most the largest MAX_ENC_LEN (R182) is below 2^31. -/
theorem encLen_lt {n : Nat} (h : n ≤ 1744830463) : encLen n < 2 ^ 31 := by
  have htail := encT_le (n % 13)
  rw [encLen]
  omega

/-- A tail gives at most 12 bytes, none for an invalid length. -/
theorem decT_getD_le (m : Nat) : (decT m).getD 0 ≤ 12 := by
  cases ht : decT m with
  | none => exact Nat.zero_le _
  | some d => exact decT_le ht

/-- A decoded length is below 2^31 when the text length is. -/
theorem decLen_getD_lt {n : Nat} (h : n < 2 ^ 31) : (decLen n).getD 0 < 2 ^ 31 := by
  have htail := decT_getD_le (n % 16)
  rw [decLen]
  cases hd : decT (n % 16) with
  | none => exact Nat.two_pow_pos _
  | some d =>
    rw [hd] at htail
    simp only [Option.map_some, Option.getD_some] at htail ⊢
    omega

/-- DEST_TOO_SHORT of a command that is not ignored comes from the command's own rule (R84). -/
theorem guarded_short {legal : Bool} {t : Tier} {rule : State → State} {s : State} (hf : s.regs.fatal = false)
    (he : (guarded legal t rule s).regs.err = 1) : (rule s).regs.err = 1 := by
  rcases guarded_cases legal t rule s with ⟨hf', -⟩ | ⟨-, -, hg⟩ | ⟨-, -, -, hg⟩ | ⟨-, -, -, hg⟩
  · rw [hf] at hf'; cases hf'
  · rw [hg] at he; exact absurd he (raise_err_ne_one (by decide))
  · rw [hg] at he; exact absurd he (raise_err_ne_one (by decide))
  · rw [← hg]; exact he

/-- ENCODE reports DEST_TOO_SHORT only for a length from 0 to MAX_ENC_LEN: the errors of the other lengths come first
(R185, R217). -/
theorem exec_encode_short {f : Bool} {t : Tier} {s u : State} (h : exec (.encode f t) s = .next u)
    (hf : s.regs.fatal = false) (he : u.regs.err = 1) :
    0 ≤ s.regs.srcLen.toInt ∧ s.regs.srcLen.toInt ≤ s.cfg.maxEncLen := by
  cases h
  have he := guarded_short hf he
  split at he
  · exact absurd he (raise_err_ne_one (by decide))
  · next hneg =>
    split at he
    · exact absurd he (raise_err_ne_one (by decide))
    · next hmax =>
      simp only [srcLength] at hneg hmax
      omega

/-- DECODE reports DEST_TOO_SHORT only for a length that is not negative (R186, R217). -/
theorem exec_decode_short {f : Bool} {t : Tier} {s u : State} (h : exec (.decode f t) s = .next u)
    (hf : s.regs.fatal = false) (he : u.regs.err = 1) : 0 ≤ s.regs.srcLen.toInt := by
  cases h
  have he := guarded_short hf he
  split at he
  · exact absurd he (raise_err_ne_one (by decide))
  · next hneg =>
    simp only [srcLength] at hneg
    omega

/-- An output length that DEST_TOO_SHORT reports is below 2^31, the parameters being legal (R6, R182). -/
theorem outputLen_lt_of_short {i : Instr} {s u : State} (hl : s.cfg.Legal) (h : exec i s = .next u)
    (hf : s.regs.fatal = false) (he : u.regs.err = 1) : outputLen i s < 2 ^ 31 := by
  cases i with
  | div91 | encpair | decpair | digenc | digdec | split | merge | enclen | declen | validate => exact Nat.two_pow_pos _
  | encblk u | decblk u => simp only [outputLen]; cases u <;> decide
  | enctail n => exact Nat.lt_of_le_of_lt (encT_le _) (by decide)
  | dectail m => exact Nat.lt_of_le_of_lt (decT_getD_le _) (by decide)
  | encode f =>
    obtain ⟨h0, hmax⟩ := exec_encode_short h hf he
    obtain ⟨hn, -⟩ := toInt_nonneg h0
    obtain ⟨-, -, hle, -⟩ := hl
    have hlen : s.regs.srcLen.toNat ≤ 1744830463 := by omega
    cases f
    · simp only [outputLen]; simp; omega
    · exact encLen_lt hlen
  | decode f =>
    obtain ⟨-, hlen⟩ := toInt_nonneg (exec_decode_short h hf he)
    cases f
    · simp only [outputLen]; simp; omega
    · exact decLen_getD_lt hlen

/-- A register file after a command is in order when it was before. -/
theorem Ending.regsOk {i : Instr} {s t : State} (h : Ending i s t) (hs : RegsOk s.cfg s.regs)
    (hshort : s.regs.fatal = false → t.regs.err = 1 → outputLen i s < 2 ^ 31) : RegsOk s.cfg t.regs := by
  cases h with
  | ignored => exact hs
  | short hf _ h0 hc =>
    have hpos : outputLen i s ≠ 0 := by omega
    exact regsOk_raise hs hf (by decide) (by simp [hpos]) (hshort hf rfl)
  | error hf e h0 h1 => exact regsOk_raise hs hf h0 (by simp [h1]) (by decide)
  | fatal => exact regsOk_raiseFatal hs
  | done hf _ a b => exact regsOk_complete hs hf a b (by decide) (by decide)
  | wrote hf _ hfit _ hin =>
    have hcap : s.regs.dstCap.toInt < 2 ^ 31 := BitVec.toInt_lt
    exact regsOk_complete (s := { s with mem := _ }) hs hf 0 0 hin (by omega)

/-- The memory after a command is in order when it was before: the write region ends inside the address space (R57). -/
theorem Ending.memOk {i : Instr} {s t : State} (h : Ending i s t) (hs : MemOk s.cfg s.mem) : MemOk s.cfg t.mem := by
  cases h with
  | ignored | short | error | fatal | done => exact hs
  | wrote _ _ hfit hlen =>
    obtain ⟨-, -, hdst, -⟩ := hfit
    exact hs.write (by rw [hlen]; exact hdst)

/-- What a command has written is WRITTEN, or nothing when it was ignored. -/
theorem writeCount_le_written (s t : State) : writeCount s t ≤ t.regs.written.toNat := by
  unfold writeCount
  split
  · exact Nat.zero_le _
  · exact Nat.le_refl _

/-- What a command has written ends inside the address space (R57). -/
theorem Ending.writeCount_le {i : Instr} {s t : State} (h : Ending i s t)
    (hdst : s.regs.dstAddr.toNat < spaceSize s.cfg) : s.regs.dstAddr.toNat + writeCount s t ≤ spaceSize s.cfg := by
  have hle := writeCount_le_written s t
  cases h with
  | ignored hf => rw [writeCount, if_pos hf]; omega
  | short | error | fatal | done => exact Nat.le_trans (Nat.add_le_add_left hle _) (Nat.le_of_lt hdst)
  | wrote _ _ hfit =>
    obtain ⟨-, -, hfit, -⟩ := hfit
    have hmod : outputLen i s % 2 ^ 32 ≤ outputLen i s := Nat.mod_le _ _
    rw [complete_written, BitVec.toNat_ofNat] at hle
    omega

/-! ### The invariant of the whole machine -/

/-- A state that keeps the parameters and the other units of one that meets the invariant meets it as well, when its
memory and its registers are in order. -/
theorem State.Inv.of_frame {s t : State} (h : s.Inv) (hcfg : t.cfg = s.cfg) (hbelow : t.below = s.below)
    (habove : t.above = s.above) (hmem : MemOk s.cfg t.mem) (hregs : RegsOk s.cfg t.regs) : t.Inv := by
  obtain ⟨hlegal, hunits, -, -, hall⟩ := h
  obtain ⟨hwf, hin⟩ := hmem
  rw [State.Inv, unitFiles, hcfg, hbelow, habove]
  refine ⟨hlegal, by simpa [unitFiles] using hunits, hwf, hin, fun r hr => ?_⟩
  rw [List.mem_append, List.mem_cons] at hr
  rcases hr with hr | rfl | hr
  · exact hall r (List.mem_append_left _ hr)
  · exact hregs
  · exact hall r (List.mem_append_right _ (List.mem_cons_of_mem _ hr))

/-- The invariant orders the memory. -/
theorem State.Inv.memOk {s : State} (h : s.Inv) : MemOk s.cfg s.mem := by
  obtain ⟨-, -, hwf, hin, -⟩ := h
  exact ⟨hwf, hin⟩

/-- The invariant orders the registers in focus. -/
theorem State.Inv.regsOk {s : State} (h : s.Inv) : RegsOk s.cfg s.regs := by
  obtain ⟨-, -, -, -, hall⟩ := h
  exact hall _ (List.mem_append_right _ List.mem_cons_self)

/-- The invariant does not speak of the moves left and of the replies. -/
theorem State.Inv.of_withMoves {s : State} (h : s.Inv) (rest : List HostMove) (replies : List Dword) :
    State.Inv { s with pending := rest, replies := replies } := h

/-- Bringing a unit into focus keeps the invariant. -/
theorem State.Inv.of_focusUnit {u : Nat} {s t : State} (h : s.Inv) (hu : focusUnit u s = some t) : t.Inv := by
  obtain ⟨-, hunits, -, he⟩ := focusUnit_eq_some hu
  have hcfg : t.cfg = s.cfg := focusUnit_cfg hu
  have hmem : t.mem = s.mem := by rw [he]
  rw [State.Inv, hunits, hcfg, hmem]
  exact h

/-! ### The command step -/

/-- A command word ends as some command does (an illegal word as any command that raises its error, R79), and an output
length that DEST_TOO_SHORT reports is below 2^31. -/
theorem executeWord_ending {w : Word} {s t : State} (hl : s.cfg.Legal) (h : executeWord w s = .next t) :
    ∃ i, Ending i (storeCmd w s) t ∧ (s.regs.fatal = false → t.regs.err = 1 → outputLen i (storeCmd w s) < 2 ^ 31) := by
  cases hd : decode w with
  | ok i =>
    rw [executeWord_of_decode hd] at h
    exact ⟨i, exec_ending h, outputLen_lt_of_short (s := storeCmd w s) hl h⟩
  | error e =>
    rw [executeWord_of_illegal hd] at h
    cases h
    refine ⟨.div91, ?_, fun _ _ => Nat.two_pow_pos _⟩
    rcases guarded_cases false .auto id (storeCmd w s) with ⟨hf, hg⟩ | ⟨hf, -, hg⟩ | ⟨-, hl, -⟩ | ⟨-, hl, -⟩
    · rw [hg]; exact .ignored hf
    · rw [hg]; exact .error hf _ (by decide) (by decide) (by decide)
    · cases hl
    · cases hl

/-- A command changes neither the parameters nor the other units. -/
theorem Ending.units {i : Instr} {s t : State} (h : Ending i s t) :
    t.cfg = s.cfg ∧ t.below = s.below ∧ t.above = s.above := by
  rw [h.frame.1]
  exact ⟨rfl, rfl, rfl⟩

/-- Executing a command word keeps the invariant. -/
theorem executeWord_inv {w : Word} {s t : State} (h : s.Inv) (he : executeWord w s = .next t) : t.Inv := by
  obtain ⟨i, hend, hshort⟩ := executeWord_ending h.1 he
  obtain ⟨hcfg, hbelow, habove⟩ := hend.units
  exact h.of_frame hcfg hbelow habove (hend.memOk h.memOk) (hend.regsOk h.regsOk hshort)

/-- What a command word has written ends inside the address space (R57). -/
theorem executeWord_writeCount_le {w : Word} {s t : State} (h : s.Inv) (he : executeWord w s = .next t) :
    s.regs.dstAddr.toNat + writeCount s t ≤ spaceSize s.cfg := by
  obtain ⟨i, hend, -⟩ := executeWord_ending h.1 he
  obtain ⟨-, hdst, -⟩ := h.regsOk
  exact hend.writeCount_le hdst

/-! ### The moves -/

/-- A host register write keeps the invariant. -/
theorem hostRegWrite_inv {i : Fin 16} {v : Dword} {s t : State} (h : s.Inv) (he : hostRegWrite i v s = .next t) :
    t.Inv := by
  unfold hostRegWrite at he
  split at he
  · exact executeWord_inv h he
  · cases he
    exact h.of_frame rfl rfl rfl h.memOk (regsOk_regWrite h.regsOk i v)

/-- An access reaches no byte outside the address space when it has no byte at all or ends inside it (R50). -/
theorem outsideByte_eq_none {c : Config} {addr n : Nat} :
    outsideByte c addr n = none ↔ n = 0 ∨ addr + n ≤ spaceSize c := by
  unfold outsideByte
  split_ifs <;> simp_all

/-- A host write to the memory keeps the invariant: a write that would leave the address space stops (R50). -/
theorem hostMemWrite_inv {addr : Nat} {bytes : List Byte} {s t : State} (h : s.Inv)
    (he : hostMemWrite addr bytes s = .next t) : t.Inv := by
  unfold hostMemWrite at he
  split at he
  · cases he
  · next hout =>
    cases he
    have hmem : MemOk s.cfg (memWrite s.mem addr bytes) := by
      rcases outsideByte_eq_none.mp hout with h0 | hle
      · rw [List.length_eq_zero_iff.mp h0]; exact h.memOk
      · exact h.memOk.write hle
    exact h.of_frame rfl rfl rfl hmem h.regsOk

/-- A host read of the memory keeps the invariant. -/
theorem hostMemRead_inv {addr n : Nat} {s t : State} (h : s.Inv) (he : hostMemRead addr n s = .next t) : t.Inv := by
  unfold hostMemRead at he
  split at he
  · cases he
  · cases he; exact h

/-- Reset of a unit keeps the invariant. -/
theorem resetUnit_inv {s : State} (h : s.Inv) : (resetUnit s).Inv :=
  h.of_frame rfl rfl rfl h.memOk (regsOk_reset _)

/-- Free bytes inside the address space keep the invariant. -/
theorem scramble_inv {addr n : Nat} {s : State} (h : s.Inv) (hn : addr + n ≤ spaceSize s.cfg) :
    (scramble addr n s).Inv :=
  h.of_frame rfl rfl rfl (h.memOk.write (by simpa using hn)) h.regsOk

/-- Touches inside the address space keep the invariant. -/
theorem touches_inv {addr n : Nat} {touches : List Touch} {s : State} (h : s.Inv)
    (ht : ∀ x ∈ touches, touchAddr x < spaceSize s.cfg) : (touches.foldl (doTouch addr n) s).Inv := by
  have hmem : MemOk s.cfg (touches.foldl (doTouch addr n) s).mem := h.memOk.touches ht
  rw [touches_eq]
  exact h.of_frame rfl rfl rfl hmem h.regsOk

/-- Reset during a held command keeps the invariant (R242). -/
theorem resetDuringCommand_inv {w : Word} {s t : State} (h : s.Inv) (he : resetDuringCommand w s = .next t) :
    t.Inv := by
  obtain ⟨s', hs'⟩ := executeWord_next w s
  rw [resetDuringCommand, hs'] at he
  cases he
  exact resetUnit_inv (scramble_inv h (executeWord_writeCount_le h hs'))

/-- A command that other agents touch keeps the invariant: a touch outside the address space stops (R50, R65). -/
theorem contendedCommand_inv {w : Word} {touches : List Touch} {s t : State} (h : s.Inv)
    (he : contendedCommand w touches s = .next t) : t.Inv := by
  obtain ⟨s', hs'⟩ := executeWord_next w s
  unfold contendedCommand at he
  split at he
  · cases he
  · next hnone =>
    rw [hs'] at he
    cases he
    have hcfg : s'.cfg = s.cfg := by
      obtain ⟨i, hend, -⟩ := executeWord_ending h.1 hs'
      exact hend.units.1
    have hin : ∀ x ∈ touches, touchAddr x < spaceSize s.cfg := by simpa using hnone
    have hs'' := executeWord_inv h hs'
    have hcount := executeWord_writeCount_le h hs'
    rw [← hcfg] at hin hcount
    split
    · exact touches_inv (scramble_inv hs'' hcount) hin
    · exact touches_inv hs'' hin

/-- A move that keeps the invariant on the addressed unit keeps it. -/
theorem onUnit_inv {u : Nat} {f : State → Host.Outcome State Fault Refusal} {s t : State} (h : s.Inv)
    (hf : ∀ s1, s1.Inv → f s1 = .next t → t.Inv) (he : onUnit u f s = .next t) : t.Inv := by
  unfold onUnit at he
  split at he
  · cases he
  · next s1 hu => exact hf s1 (h.of_focusUnit hu) he

/-- Every move keeps the invariant. -/
theorem performMove_inv {m : HostMove} {s t : State} (h : s.Inv) (he : performMove m s = .next t) : t.Inv := by
  cases m with
  | regWrite u i v => exact onUnit_inv h (fun _ => hostRegWrite_inv) he
  | regRead u i => exact onUnit_inv h (fun _ h1 he1 => by cases he1; exact h1) he
  | memRead addr n => exact hostMemRead_inv h he
  | memWrite addr bytes => exact hostMemWrite_inv h he
  | reset u => exact onUnit_inv h (fun _ h1 he1 => by cases he1; exact resetUnit_inv h1) he
  | cmdReset u w => exact onUnit_inv h (fun _ => resetDuringCommand_inv) he
  | cmdContended u w touches => exact onUnit_inv h (fun _ => contendedCommand_inv) he

/-- Settles O58: an idle step changes nothing, and every move keeps the invariant. -/
theorem stepKeepsTheInvariant : Obligations.StepKeepsTheInvariant := by
  intro s t h he
  cases hp : s.pending with
  | nil =>
    rw [step, nextMove, hp] at he
    cases he
    exact h
  | cons m rest =>
    rw [step_of_pending hp] at he
    exact performMove_inv (h.of_withMoves rest []) he

end Sys2Proof.Machine

/-! PROOFS. The bytes of a region one by one, the host's accesses to the buffer memory, and where a step stops
(spec/20_memory.md R50, R51, R63, spec/60_exceptions.md R224). -/

namespace Sys2Proof.Machine

/-! ### The bytes of a region, one by one (R51) -/

/-- Byte `k` of what MemRead gives is the byte `k` above the address. -/
theorem getElem?_memRead (m : Memory) (a : Nat) {n k : Nat} (h : k < n) :
    (memRead m a n)[k]? = some (memByte m (a + k)) := by
  induction n generalizing a k with
  | zero => exact absurd h (Nat.not_lt_zero k)
  | succ n ih =>
    cases k with
    | zero => rfl
    | succ k => rw [memRead, List.getElem?_cons_succ, ih _ (by omega), Nat.add_right_comm, Nat.add_assoc]

/-- Two memories that read alike over a region hold the same bytes there. -/
theorem memByte_eq_of_memRead_eq {m m' : Memory} {a n k : Nat} (h : memRead m a n = memRead m' a n) (hk : k < n) :
    memByte m (a + k) = memByte m' (a + k) :=
  Option.some.inj (by rw [← getElem?_memRead m a hk, h, getElem?_memRead m' a hk])

/-- In a canonical memory the bytes MemWrite wrote stand in its region. -/
theorem memByte_memWrite_inside {m : Memory} (hm : m.wf) (a : Nat) {bs : List Byte} {k : Nat} {b : Byte}
    (h : bs[k]? = some b) : memByte (memWrite m a bs) (a + k) = b := by
  obtain ⟨hk, -⟩ := List.getElem?_eq_some_iff.mp h
  rw [← memRead_memWrite hm a bs, getElem?_memRead _ _ hk] at h
  exact Option.some.inj h

/-! ### Free bytes (R65, R242) -/

/-- The free bytes in order. -/
theorem getElem?_freeBytes (f : Nat) {n k : Nat} (h : k < n) :
    (freeBytes f n)[k]? = some (Config.freeByte (f + k)) := by
  induction n generalizing f k with
  | zero => exact absurd h (Nat.not_lt_zero k)
  | succ n ih =>
    cases k with
    | zero => rfl
    | succ k => rw [freeBytes, List.getElem?_cons_succ, ih _ (by omega), Nat.add_right_comm, Nat.add_assoc]

/-- In a canonical memory the bytes of a scrambled region are free bytes. -/
theorem memByte_scramble_inside {addr n k : Nat} {s : State} (hm : s.mem.wf) (hk : k < n) :
    memByte (scramble addr n s).mem (addr + k) = Config.freeByte (s.fresh + k) :=
  memByte_memWrite_inside hm addr (getElem?_freeBytes s.fresh hk)

/-- The bytes outside a scrambled region stay. -/
theorem memByte_scramble_outside {addr n a : Nat} (s : State) (ha : a < addr ∨ addr + n ≤ a) :
    memByte (scramble addr n s).mem a = memByte s.mem a :=
  memByte_memWrite_outside _ (by rwa [freeBytes_length])

/-! ### The host's accesses to the buffer memory (R50, R63) -/

/-- An access that ends inside the address space reaches no byte outside it. -/
theorem outsideByte_of_le {c : Config} {addr n : Nat} (h : addr + n ≤ spaceSize c) : outsideByte c addr n = none :=
  outsideByte_eq_none.mpr (.inr h)

/-- An access of at least one byte that passes the top of the address space reaches the first byte of it that is outside. -/
theorem outsideByte_eq_some {c : Config} {addr n a : Nat} :
    outsideByte c addr n = some a ↔ 0 < n ∧ spaceSize c < addr + n ∧ a = max addr (spaceSize c) := by
  unfold outsideByte
  split_ifs with h
  · simp only [false_iff]; omega
  · simp only [Option.some.injEq]; omega

/-- The step of a host write inside the address space. -/
theorem step_memWrite {s : State} {addr : Nat} {bytes : List Byte} {rest : List HostMove}
    (hp : s.pending = .memWrite addr bytes :: rest) (hin : addr + bytes.length ≤ spaceSize s.cfg) :
    step s = .next { s with pending := rest, replies := [], mem := memWrite s.mem addr bytes } := by
  rw [step_of_pending hp, performMove, hostMemWrite, outsideByte_of_le hin]

/-- The step of a host read inside the address space. -/
theorem step_memRead {s : State} {addr n : Nat} {rest : List HostMove} (hp : s.pending = .memRead addr n :: rest)
    (hin : addr + n ≤ spaceSize s.cfg) :
    step s = .next { s with pending := rest, replies := (memRead s.mem addr n).map fun b => b.setWidth 64 } := by
  rw [step_of_pending hp, performMove, hostMemRead, outsideByte_of_le hin]

/-- Settles O10: both moves end inside the address space, and a canonical memory reads back what was written. -/
theorem hostMemoryWriteReadsBack : Obligations.HostMemoryWriteReadsBack := by
  intro s addr bytes rest hwf hin hp
  exact ⟨_, _, step_memWrite hp hin, step_memRead rfl hin,
    congrArg (List.map fun b => b.setWidth 64) (memRead_memWrite hwf addr bytes), rfl,
    fun _ ha => memByte_memWrite_outside s.mem ha⟩

/-! ### Where a step stops (R50, R224, logs 11 and 12) -/

/-- An outcome of a move from `s` is a next state, or a fault that names a unit which is not built or a byte outside the
address space. -/
def StopsOnlyWhereNothingExists (s : State) : Host.Outcome State Fault Refusal → Prop
  | .next _ => True
  | .fault (.noSuchUnit u) => (unitFiles s).length ≤ u
  | .fault (.outsideBufferMemory a) => spaceSize s.cfg ≤ a
  | .refused _ => False

/-- A move to a unit stops where that unit is missing, and else as it does on the unit. -/
theorem onUnit_stops {u : Nat} {f : State → Host.Outcome State Fault Refusal} {s : State}
    (hf : ∀ s1, focusUnit u s = some s1 → StopsOnlyWhereNothingExists s1 (f s1)) :
    StopsOnlyWhereNothingExists s (onUnit u f s) := by
  cases hu : focusUnit u s with
  | none =>
    rw [onUnit, hu]
    exact focusUnit_eq_none.mp hu
  | some s1 =>
    obtain ⟨-, hunits, -⟩ := focusUnit_eq_some hu
    have h := hf s1 hu
    rw [onUnit, hu]
    unfold StopsOnlyWhereNothingExists at h ⊢
    rwa [hunits, focusUnit_cfg hu] at h

/-- A command word does not stop the machine (R210). -/
theorem executeWord_stops (w : Word) (s : State) : StopsOnlyWhereNothingExists s (executeWord w s) := by
  obtain ⟨t, ht⟩ := executeWord_next w s
  rw [ht]
  trivial

/-- Nor does reset while a command is held. -/
theorem resetDuringCommand_stops (w : Word) (s : State) : StopsOnlyWhereNothingExists s (resetDuringCommand w s) := by
  obtain ⟨t, ht⟩ := executeWord_next w s
  rw [resetDuringCommand, ht]
  trivial

/-- A command with touches stops at a touch outside the address space, and else not. -/
theorem contendedCommand_stops (w : Word) (touches : List Touch) (s : State) :
    StopsOnlyWhereNothingExists s (contendedCommand w touches s) := by
  unfold contendedCommand
  split
  · next x hx =>
    have hout : spaceSize s.cfg ≤ touchAddr x := by simpa using List.find?_some hx
    exact hout
  · obtain ⟨t, ht⟩ := executeWord_next w s
    rw [ht]
    trivial

/-- A host read of the memory stops outside the address space. -/
theorem hostMemRead_stops (addr n : Nat) (s : State) : StopsOnlyWhereNothingExists s (hostMemRead addr n s) := by
  unfold hostMemRead
  split
  · next a ha =>
    obtain ⟨-, -, rfl⟩ := outsideByte_eq_some.mp ha
    exact Nat.le_max_right _ _
  · trivial

/-- So does a host write. -/
theorem hostMemWrite_stops (addr : Nat) (bytes : List Byte) (s : State) :
    StopsOnlyWhereNothingExists s (hostMemWrite addr bytes s) := by
  unfold hostMemWrite
  split
  · next a ha =>
    obtain ⟨-, -, rfl⟩ := outsideByte_eq_some.mp ha
    exact Nat.le_max_right _ _
  · trivial

/-- Every move stops only at a missing unit or a missing byte. -/
theorem performMove_stops (m : HostMove) (s : State) : StopsOnlyWhereNothingExists s (performMove m s) := by
  cases m with
  | regWrite u i v =>
    refine onUnit_stops fun s1 _ => ?_
    unfold hostRegWrite
    split
    · exact executeWord_stops _ _
    · trivial
  | regRead | reset => exact onUnit_stops fun _ _ => trivial
  | memRead addr n => exact hostMemRead_stops addr n s
  | memWrite addr bytes => exact hostMemWrite_stops addr bytes s
  | cmdReset u w => exact onUnit_stops fun s1 _ => resetDuringCommand_stops w s1
  | cmdContended u w touches => exact onUnit_stops fun s1 _ => contendedCommand_stops w touches s1

/-- With no move to come a step changes nothing (R247). -/
theorem step_idle {s : State} (h : s.pending = []) : step s = .next s := by
  rw [step, nextMove, h]

/-- Every step stops only at a missing unit or a missing byte. -/
theorem step_stops (s : State) : StopsOnlyWhereNothingExists s (step s) := by
  cases hp : s.pending with
  | nil => rw [step_idle hp]; trivial
  | cons m rest =>
    rw [step_of_pending hp]
    exact performMove_stops m { s with pending := rest, replies := [] }

/-- A move that names a unit is done on that unit. -/
theorem performMove_of_moveUnit {m : HostMove} {u : Nat} (h : moveUnit m = some u) :
    ∃ f, performMove m = onUnit u f := by
  cases m with
  | memRead | memWrite => cases h
  | regWrite | regRead | reset | cmdReset | cmdContended => cases h; exact ⟨_, rfl⟩

/-- A command stops at a touch outside the address space, if there is one. -/
theorem contendedCommand_fault {w : Word} {touches : List Touch} {s : State}
    (h : ∃ x ∈ touches, spaceSize s.cfg ≤ touchAddr x) :
    ∃ x ∈ touches, contendedCommand w touches s = .fault (.outsideBufferMemory (touchAddr x)) := by
  cases hfind : touches.find? fun x => decide (spaceSize s.cfg ≤ touchAddr x) with
  | none =>
    obtain ⟨x, hx, hout⟩ := h
    exact absurd (decide_eq_true hout) (List.find?_eq_none.mp hfind x hx)
  | some x => exact ⟨x, List.mem_of_find?_eq_some hfind, by rw [contendedCommand, hfind]⟩

/-- Settles O11: every step stops only at what is missing, and each access to something missing is refused by the test that
the move begins with. -/
theorem stepStopsOnlyWhereNothingExists : Obligations.StepStopsOnlyWhereNothingExists := by
  refine ⟨fun s => step_idle, fun s r h => ?_, fun s r h => ?_, ?_, ?_, ?_, ?_⟩
  · have hstop := step_stops s
    rw [h] at hstop
    cases r with
    | noSuchUnit u => exact .inl ⟨u, rfl, hstop⟩
    | outsideBufferMemory a => exact .inr ⟨a, rfl, hstop⟩
  · have hstop := step_stops s
    rw [h] at hstop
    exact hstop
  · intro s addr n rest hn hout hp
    rw [step_of_pending hp, performMove, hostMemRead, outsideByte_eq_some.mpr ⟨hn, hout, rfl⟩]
    exact ⟨_, rfl, Nat.le_max_left _ _, max_lt (by omega) hout⟩
  · intro s addr bytes rest hn hout hp
    rw [step_of_pending hp, performMove, hostMemWrite, outsideByte_eq_some.mpr ⟨hn, hout, rfl⟩]
    exact ⟨_, rfl, Nat.le_max_left _ _, max_lt (by omega) hout⟩
  · intro s u w touches rest hu hout hp
    obtain ⟨s1, hs1⟩ := Option.ne_none_iff_exists'.mp (mt focusUnit_eq_none.mp (Nat.not_le.mpr hu))
    rw [step_onUnit hp rfl hs1]
    exact contendedCommand_fault (by rwa [focusUnit_cfg hs1])
  · intro s u m rest hp hm hu
    obtain ⟨f, hf⟩ := performMove_of_moveUnit hm
    have hnone : focusUnit u { s with pending := rest, replies := [] } = none := focusUnit_eq_none.mpr hu
    rw [step_of_pending hp, hf, onUnit, hnone]

end Sys2Proof.Machine

/-! PROOFS. The writing commands with room for their output, and what every command writes and reads (spec/20_memory.md
R55, R56, R60, spec/42_block_codec.md R145, R146, spec/43_remainder.md R165, R166, spec/44_streaming.md R185, R186). -/

namespace Sys2Proof.Machine

/-! ### The writing commands with room (R55, R56) -/

/-- A transfer that fits stores its output at DST_ADDR and sets the counts. -/
theorem transfer_of_fits {s : State} {n k : Nat} {f : List Byte → List Byte} (h : Fits s n k)
    (hlen : (f (sourceBytes s n)).length = k) : transfer n k f s = withOutput s n (f (sourceBytes s n)) := by
  obtain ⟨hcap, hsrc, hdst, hdisj⟩ := h
  rw [transfer_run hcap hsrc hdst (by omega), withOutput, hlen]
  rfl

/-- Room for any output means that DST_CAP is not negative. -/
theorem Fits.not_negative {s : State} {n k : Nat} (h : Fits s n k) : ¬dstCapacity s < 0 := by
  obtain ⟨hcap, -⟩ := h
  simp only [dstCapacity]
  omega

/-- Settles O34: the guard passes, DST_CAP is not negative, and the transfer fits. -/
theorem blockCommandsComplete : Obligations.BlockCommandsComplete := by
  intro u t s hf ht
  refine ⟨fun hfit => ?_, fun hfit => ?_⟩
  · rw [exec, execEncblk, guarded_run hf rfl ht, if_neg hfit.not_negative, transfer_of_fits hfit (by simp)]
  · rw [exec, execDecblk, guarded_run hf rfl ht, if_neg hfit.not_negative, transfer_of_fits hfit (by simp)]

/-- DEC_T undoes ENC_T (R161). -/
theorem decT_encT {d : Nat} (h : d ≤ 12) : decT (encT d) = some d := by
  interval_cases d <;> rfl

/-- Settles O35: as for the blocks, a valid DECTAIL length being one of ENC_T. -/
theorem tailCommandsComplete : Obligations.TailCommandsComplete := by
  intro n t s hf ht
  refine ⟨fun hn hfit => ?_, fun d hd hn hfit => ?_⟩
  · rw [exec, execEnctail, guarded_run hf (by simpa using hn) ht, if_neg hfit.not_negative,
      transfer_of_fits hfit (by simp)]
  · have hdec : decT n.toNat = some d := hn ▸ decT_encT hd
    rw [exec, execDectail, guarded_run hf rfl ht, if_neg hfit.not_negative, hdec]
    dsimp only
    rw [transfer_of_fits hfit (by simp [hdec])]

/-- Settles O36: SRC_LEN passes both length checks, and the transfer fits. -/
theorem encodeCompletes : Obligations.EncodeCompletes := by
  intro t s n hf ht hn hmax
  have hlen : srcLength s = n := hn
  have hneg {r k : Nat} (hfit : Fits s r k) : ¬(srcLength s < 0 ∨ dstCapacity s < 0) :=
    not_or.mpr ⟨by omega, hfit.not_negative⟩
  refine ⟨fun hfit => ?_, fun hfit => ?_⟩
  all_goals
    rw [exec, execEncode, guarded_run hf rfl ht, if_neg (hneg hfit), if_neg (by omega), hlen]
    exact congrArg _ (transfer_of_fits hfit (by simp [encodeStream_length]))

/-- Settles O37: SRC_LEN is not negative, a final length is valid, and the transfer fits. -/
theorem decodeCompletes : Obligations.DecodeCompletes := by
  intro t s n hf ht hn
  have hlen : srcLength s = n := hn
  have hneg {r k : Nat} (hfit : Fits s r k) : ¬(srcLength s < 0 ∨ dstCapacity s < 0) :=
    not_or.mpr ⟨by omega, hfit.not_negative⟩
  refine ⟨fun d hd hfit => ?_, fun hfit => ?_⟩
  · rw [exec, execDecode, guarded_run hf rfl ht, if_neg (hneg hfit), hlen]
    simp only [Int.toNat_natCast, if_pos, hd]
    rw [transfer_of_fits hfit (by rw [decodeStream_length (d := d) _ _ (by simp [hd])]; rfl)]
  · rw [exec, execDecode, guarded_run hf rfl ht, if_neg (hneg hfit), hlen]
    exact congrArg _ (transfer_of_fits hfit (by rw [decodeStream_length (d := 0) _ _ (by simp)]; simp))

/-! ### What a command writes and reads -/

/-- However a command ends, no byte outside its write region changes (R56). -/
theorem Ending.memByte_outside {i : Instr} {s t : State} (h : Ending i s t) {a : Nat}
    (ha : a < s.regs.dstAddr.toNat ∨ s.regs.dstAddr.toNat + outputLen i s ≤ a) : memByte t.mem a = memByte s.mem a := by
  cases h with
  | ignored | short | error | fatal | done => rfl
  | wrote _ _ _ hlen => exact memByte_memWrite_outside _ (by rwa [hlen])

/-- An ignored command and one that ends in an error write nothing (R218, R219). -/
theorem Ending.mem_of_failed {i : Instr} {s t : State} (h : Ending i s t)
    (hfail : s.regs.fatal = true ∨ t.regs.err ≠ 0) : t.mem = s.mem := by
  cases h with
  | ignored | short | error | fatal | done => rfl
  | wrote hf =>
    rcases hfail with hf' | he
    · rw [hf] at hf'; cases hf'
    · exact absurd rfl he

/-- A command that is not ignored and ends without an error has completed, and a writing one has written its output. -/
theorem Ending.completed {i : Instr} {s t : State} (h : Ending i s t) (hf : s.regs.fatal = false) (he : t.regs.err = 0)
    (hw : writesMemory i = true) :
    t.regs.written.toNat = outputLen i s ∧ t.regs.consumed.toNat = inputLen i s ∧
      (outputBytes i (sourceBytes s (inputLen i s))).length = outputLen i s ∧
      t.mem = memWrite s.mem s.regs.dstAddr.toNat (outputBytes i (sourceBytes s (inputLen i s))) := by
  cases h with
  | ignored hf' => rw [hf] at hf'; cases hf'
  | short => cases errNumber_eq_zero (e := .destTooShort).mp he
  | error _ e h0 => exact absurd (errNumber_eq_zero.mp he) h0
  | fatal => cases errNumber_eq_zero (e := .unsupportedOperation).mp he
  | done _ hw' => rw [hw] at hw'; cases hw'
  | wrote _ _ hfit hlen hin =>
    obtain ⟨hcap, -⟩ := hfit
    have hlt : s.regs.dstCap.toInt < 2 ^ 31 := BitVec.toInt_lt
    exact ⟨toNat_ofNat_length (by omega), toNat_ofNat_length hin, hlen, rfl⟩

/-- In a canonical memory the write region of a completed command holds its output (R56). -/
theorem Ending.memRead_output {i : Instr} {s t : State} (h : Ending i s t) (hf : s.regs.fatal = false)
    (he : t.regs.err = 0) (hw : writesMemory i = true) (hm : s.mem.wf) :
    memRead t.mem s.regs.dstAddr.toNat (outputLen i s) = outputBytes i (sourceBytes s (inputLen i s)) := by
  obtain ⟨-, -, hlen, hmem⟩ := h.completed hf he hw
  rw [hmem, ← hlen, memRead_memWrite hm]

/-- Settles O20, by the ways a command can end. -/
theorem commandsWriteExactlyTheWriteRegion : Obligations.CommandsWriteExactlyTheWriteRegion := by
  intro i s t h
  have hend := exec_ending h
  refine ⟨fun a => hend.memByte_outside, hend.mem_of_failed, fun hf he hw => ?_⟩
  obtain ⟨hwritten, hconsumed, -⟩ := hend.completed hf he hw
  exact ⟨hwritten, hconsumed, hend.memRead_output hf he hw⟩

/-- What a transfer leaves in the registers does not depend on the memory. -/
theorem transfer_regs_withMem (n k : Nat) (f : List Byte → List Byte) (s : State) (m : Memory) :
    (transfer n k f { s with mem := m }).regs = (transfer n k f s).regs := by
  unfold transfer
  split
  · rfl
  · dsimp only
    split <;> rfl

/-- Nor does what a guarded rule leaves there when the rule's own result does not. -/
theorem guarded_regs_withMem {legal : Bool} {t : Tier} {rule : State → State} {s : State} {m : Memory}
    (h : (rule { s with mem := m }).regs = (rule s).regs) :
    (guarded legal t rule { s with mem := m }).regs = (guarded legal t rule s).regs := by
  unfold guarded
  dsimp only
  split_ifs
  · rfl
  · rfl
  · rfl
  · exact h

/-- Two branchings on one condition leave the same registers when their branches do. -/
theorem ite_regs_congr {c : Prop} [Decidable c] {a a' b b' : State} (ha : c → a'.regs = a.regs)
    (hb : ¬c → b'.regs = b.regs) : (if c then a' else b').regs = (if c then a else b).regs := by
  split
  · next h => exact ha h
  · next h => exact hb h

/-- What a command leaves in the registers depends on no byte outside its read region: only VALIDATE looks at bytes at
all, and it looks at that region (R55, R60, R189). -/
theorem exec_regs_withMem {i : Instr} {s t t' : State} {m : Memory}
    (hr : memRead m s.regs.srcAddr.toNat (inputLen i s) = sourceBytes s (inputLen i s))
    (h : exec i s = .next t) (h' : exec i { s with mem := m } = .next t') : t'.regs = t.regs := by
  cases i <;> cases h <;> cases h' <;> refine guarded_regs_withMem ?_
  case div91 | encpair | decpair | digenc | digdec | split | merge => rfl
  case encblk | decblk | enctail => exact ite_regs_congr (fun _ => rfl) fun _ => transfer_regs_withMem _ _ _ _ _
  case dectail n _ =>
    refine ite_regs_congr (fun _ => rfl) fun _ => ?_
    cases decT n.toNat with
    | none => rfl
    | some d => exact transfer_regs_withMem _ _ _ _ _
  case encode =>
    exact ite_regs_congr (fun _ => rfl) fun _ => ite_regs_congr (fun _ => rfl) fun _ =>
      ite_regs_congr (fun _ => transfer_regs_withMem _ _ _ _ _) fun _ => transfer_regs_withMem _ _ _ _ _
  case decode =>
    refine ite_regs_congr (fun _ => rfl) fun _ =>
      ite_regs_congr (fun _ => ?_) fun _ => transfer_regs_withMem _ _ _ _ _
    simp only [srcLength]
    cases decLen s.regs.srcLen.toInt.toNat with
    | none => rfl
    | some d => exact transfer_regs_withMem _ _ _ _ _
  case enclen => exact ite_regs_congr (fun _ => rfl) fun _ => ite_regs_congr (fun _ => rfl) fun _ => rfl
  case declen =>
    refine ite_regs_congr (fun _ => rfl) fun _ => ?_
    simp only [opaLength]
    cases decLen (s.regs.opa.extractLsb' 0 32).toInt.toNat <;> rfl
  case validate =>
    refine ite_regs_congr (fun _ => rfl) fun hneg => ?_
    obtain ⟨hlen, -⟩ := toInt_nonneg (not_lt.mp hneg)
    simp only [srcLength, hlen]
    cases checkRegions s.cfg s.regs.srcAddr.toNat s.regs.srcLen.toNat 0 0 with
    | some e => rfl
    | none => exact congrArg (fun bs => (complete (if validText bs = true then 1 else 0) 0 0 0 0 s).regs) hr

/-- A command that writes no memory has an empty write region. -/
theorem outputLen_of_not_writes {i : Instr} (h : writesMemory i = false) (s : State) : outputLen i s = 0 := by
  cases i with
  | div91 | encpair | decpair | digenc | digdec | split | merge | enclen | declen | validate => rfl
  | encblk | decblk | enctail | dectail | encode | decode => cases h

/-- Settles O21: the bank by the rules' own tests, and the bytes because both memories hold the output for the same source
bytes. -/
theorem commandsReadOnlyTheReadRegion : Obligations.CommandsReadOnlyTheReadRegion := by
  intro i s t t' m hagree h h'
  have hr : memRead m s.regs.srcAddr.toNat (inputLen i s) = sourceBytes s (inputLen i s) :=
    memRead_congr hagree
  have hregs : t'.regs = t.regs := exec_regs_withMem hr h h'
  refine ⟨hregs, fun hwf hmwf hf he k hk => ?_⟩
  have hw : writesMemory i = true := by
    by_contra hn
    rw [outputLen_of_not_writes (Bool.not_eq_true _ ▸ hn)] at hk
    exact absurd hk (Nat.not_lt_zero k)
  have hout := (exec_ending h).memRead_output hf he hw hwf
  have hout' := (exec_ending h').memRead_output hf (hregs ▸ he) hw hmwf
  refine memByte_eq_of_memRead_eq (n := outputLen i s) ?_ hk
  calc memRead t'.mem s.regs.dstAddr.toNat (outputLen i s)
      = outputBytes i (memRead m s.regs.srcAddr.toNat (inputLen i s)) := hout'
    _ = memRead t.mem s.regs.dstAddr.toNat (outputLen i s) := by rw [hr, hout]

end Sys2Proof.Machine

/-! PROOFS. The error every command ends with, and a command that other agents touch (spec/60_exceptions.md R217,
spec/20_memory.md R65). -/

namespace Sys2Proof.Machine

/-! ### The error a command ends with (R217) -/

/-- The first error of a list whose condition holds, or none. -/
def firstHolding : List (ErrCode × Bool) → ErrCode
  | [] => .ok
  | (e, b) :: causes => if b = true then e else firstHolding causes

/-- A command's first error is the first of its causes that holds. -/
theorem firstError_eq_firstHolding (i : Instr) (s : State) : firstError i s = firstHolding (errorCauses i s) := by
  rw [firstError]
  generalize errorCauses i s = causes
  induction causes with
  | nil => rfl
  | cons c causes ih =>
    obtain ⟨e, b⟩ := c
    cases b
    · simpa [firstHolding] using ih
    · simp [firstHolding]

/-- The causes a command's own rule checks: those after ILLEGAL_COMMAND and UNSUPPORTED_OPERATION. -/
def ruleError (i : Instr) (s : State) : ErrCode := firstHolding ((errorCauses i s).drop 2)

/-- The first error is that of the guard, or else that of the rule (R84, R217). -/
theorem firstError_eq (i : Instr) (s : State) :
    firstError i s = if i.wellFormed = false then .illegalCommand
      else if tierPresent s.cfg (tierOf i) = false then .unsupportedOperation else ruleError i s := by
  rw [firstError_eq_firstHolding, errorCauses, firstHolding, firstHolding]
  simp only [Bool.not_eq_true']
  rfl

/-- The error a transfer of `n` bytes to `k` bytes ends with (R57, R58, R212). -/
def transferError (n k : Nat) (s : State) : ErrCode :=
  if s.regs.dstCap.toInt < k then .destTooShort
  else (checkRegions s.cfg s.regs.srcAddr.toNat n s.regs.dstAddr.toNat k).getD .ok

/-- RANGE for a writing command is RANGE of its read region or of its write region (R57). -/
theorem passesTop_of_writes {i : Instr} (hw : writesMemory i = true) (s : State) :
    passesTop i s = true ↔ spaceSize s.cfg < s.regs.srcAddr.toNat + inputLen i s ∨
      spaceSize s.cfg < s.regs.dstAddr.toNat + outputLen i s := by
  cases i with
  | div91 | encpair | decpair | digenc | digdec | split | merge | enclen | declen | validate => cases hw
  | encblk | decblk | enctail | dectail | encode | decode => simp [passesTop]

/-- The last three causes of a writing command are those of its transfer. -/
theorem firstHolding_transfer {i : Instr} (hw : writesMemory i = true) (s : State) :
    firstHolding [(.destTooShort, writesMemory i && s.regs.dstCap.toInt < outputLen i s), (.range, passesTop i s),
      (.overlap, regionsOverlap i s)] = transferError (inputLen i s) (outputLen i s) s := by
  simp only [firstHolding, hw, passesTop_of_writes hw, regionsOverlap, transferError, checkRegions, Bool.true_and,
    Bool.and_eq_true, decide_eq_true_iff, and_assoc]
  split_ifs <;> simp_all

/-- The rule of a writing command checks its lengths and then does what a transfer does. -/
theorem ruleError_of_writes {i : Instr} (hw : writesMemory i = true) (s : State) :
    ruleError i s = if (lengthOperands i s).any (· < 0) = true then .negativeLength
      else if (encodeLengthOf i s).any (fun n => (s.cfg.maxEncLen : Int) < n) = true then .lengthExceedsMax
      else if (textLengthOf i s).any (fun t => t % 16 == 1 || t % 16 == 6 || t % 16 == 11) = true then .invalidLength
      else transferError (inputLen i s) (outputLen i s) s := by
  rw [← firstHolding_transfer hw]
  rfl

/-- DEC_T has no entry exactly for the invalid tail lengths (R161). -/
theorem decT_eq_none {m : Nat} (h : m < 16) : decT m = none ↔ m = 1 ∨ m = 6 ∨ m = 11 := by
  interval_cases m <;> simp [decT]

/-- A text length has no decoded length exactly when it is 1, 6 or 11 modulo 16 (R181). -/
theorem decLen_eq_none {n : Nat} : decLen n = none ↔ n % 16 = 1 ∨ n % 16 = 6 ∨ n % 16 = 11 := by
  rw [decLen, Option.map_eq_none_iff, decT_eq_none (Nat.mod_lt _ (by decide))]

/-- A guarded rule ends with the error of the guard, or else with the rule's own. -/
theorem guarded_err {legal : Bool} {t : Tier} {rule : State → State} {s : State} {e : ErrCode}
    (hf : s.regs.fatal = false) (he : (rule s).regs.err = errNumber e) :
    (guarded legal t rule s).regs.err = errNumber (if legal = false then .illegalCommand
      else if tierPresent s.cfg t = false then .unsupportedOperation else e) := by
  rw [guarded, if_neg (by simp [hf])]
  split_ifs
  · rfl
  · rfl
  · exact he

/-- A transfer ends with its error. -/
theorem transfer_err (n k : Nat) (f : List Byte → List Byte) (s : State) :
    (transfer n k f s).regs.err = errNumber (transferError n k s) := by
  unfold transfer transferError
  split
  · rfl
  · cases checkRegions s.cfg s.regs.srcAddr.toNat n s.regs.dstAddr.toNat k <;> rfl

/-- A check that raises an error ends with it, or with what comes after the check. -/
theorem check_err {c c' : Prop} [Decidable c] [Decidable c'] {e e' : ErrCode} {q : Nat} {s t : State} (hc : c ↔ c')
    (h : ¬c → t.regs.err = errNumber e') :
    (if c then raise e q s else t).regs.err = errNumber (if c' then e else e') := by
  rw [← if_congr hc rfl rfl]
  split
  · rfl
  · next hn => exact h hn

/-- A cause that a command does not have decides nothing. -/
theorem noCheck_err {c : Prop} [Decidable c] {e e' : ErrCode} {t : State} (hc : ¬c) (h : t.regs.err = errNumber e') :
    t.regs.err = errNumber (if c then e else e') := by
  rwa [if_neg hc]

/-- The check of a text length ends with INVALID_LENGTH, or with what comes after the check. -/
theorem decodedLength_err {o : Option Nat} {c : Prop} [Decidable c] {e' : ErrCode} {s : State} {x : Nat → State}
    (hc : o = none ↔ c) (h : ∀ d, o = some d → (x d).regs.err = errNumber e') :
    (match o with
      | none => raise .invalidLength 0 s
      | some d => x d).regs.err = errNumber (if c then .invalidLength else e') := by
  cases o with
  | none => rw [if_pos (hc.mp rfl)]; rfl
  | some d => rw [if_neg (by simp [← hc])]; exact h d rfl

/-- With an empty write region at address 0 only the read region can raise RANGE, and nothing overlaps (R58, R189). -/
theorem checkRegions_noWrite (c : Config) (sa n : Nat) :
    checkRegions c sa n 0 0 = if spaceSize c < sa + n then some .range else none := by
  simp [checkRegions]

/-- A command that is not ignored ends with the first error of its causes (R217). -/
theorem exec_err {i : Instr} {s t : State} (hf : s.regs.fatal = false) (h : exec i s = .next t) :
    t.regs.err = errNumber (firstError i s) := by
  rw [firstError_eq]
  cases i <;> cases h <;> refine guarded_err hf ?_
  case div91 | encpair | decpair | digenc | digdec | split | merge => rfl
  case encblk | decblk | enctail =>
    rw [ruleError_of_writes rfl]
    exact check_err (by simp [lengthOperands, dstCapacity]) fun _ =>
      noCheck_err nofun (noCheck_err nofun (transfer_err _ _ _ _))
  case dectail m _ =>
    rw [ruleError_of_writes rfl]
    refine check_err (by simp [lengthOperands, dstCapacity]) fun _ => noCheck_err nofun
      (decodedLength_err ?_ fun d hd => ?_)
    · have hm : m.toNat % 16 = m.toNat := Nat.mod_eq_of_lt m.isLt
      simp [textLengthOf, decT_eq_none m.isLt, hm, or_assoc]
    · rw [transfer_err, outputLen, hd]; rfl
  case encode f _ =>
    rw [ruleError_of_writes rfl]
    refine check_err (by simp [lengthOperands, srcLength, dstCapacity]) fun hneg =>
      check_err (by simp [encodeLengthOf, srcLength]) fun _ => noCheck_err nofun ?_
    obtain ⟨hlen, -⟩ := toInt_nonneg (not_lt.mp (not_or.mp hneg).1)
    simp only [srcLength, hlen]
    cases f <;> exact transfer_err _ _ _ _
  case decode f _ =>
    rw [ruleError_of_writes rfl]
    refine check_err (by simp [lengthOperands, srcLength, dstCapacity]) fun hneg => noCheck_err nofun ?_
    obtain ⟨hlen, -⟩ := toInt_nonneg (not_lt.mp (not_or.mp hneg).1)
    simp only [srcLength, hlen]
    cases f with
    | false => exact noCheck_err nofun (transfer_err _ _ _ _)
    | true =>
      refine decodedLength_err ?_ fun d hd => ?_
      · simp [textLengthOf, decLen_eq_none, or_assoc]
      · rw [transfer_err, outputLen, hd]; rfl
  case enclen =>
    exact check_err (by simp [lengthOperands]) fun _ => check_err (by simp [encodeLengthOf]) fun _ => rfl
  case declen =>
    exact check_err (by simp [lengthOperands]) fun _ => noCheck_err nofun
      (decodedLength_err (by simp [textLengthOf, decLen_eq_none, or_assoc]) fun _ _ => rfl)
  case validate =>
    refine check_err (by simp [lengthOperands, srcLength]) fun hneg => noCheck_err nofun (noCheck_err nofun
      (noCheck_err nofun ?_))
    obtain ⟨hlen, -⟩ := toInt_nonneg (not_lt.mp hneg)
    simp only [srcLength, hlen, checkRegions_noWrite, firstHolding, passesTop, inputLen]
    by_cases hrange : spaceSize s.cfg < s.regs.srcAddr.toNat + s.regs.srcLen.toNat
    · simp [hrange]
    · simp [hrange, regionsOverlap, outputLen, errNumber]

/-! ### The regions of a command that has been run (R55, R56, R218, R219) -/

/-- A command that is not ignored, and that ends in an error or writes no memory, has zero counts (R31, R32, R215). -/
theorem Ending.counts_eq_zero {i : Instr} {s t : State} (h : Ending i s t) (hf : s.regs.fatal = false)
    (hno : t.regs.err ≠ 0 ∨ writesMemory i = false) : t.regs.written = 0 ∧ t.regs.consumed = 0 := by
  cases h with
  | ignored hf' => rw [hf] at hf'; cases hf'
  | short | error | fatal | done => exact ⟨rfl, rfl⟩
  | wrote _ hw =>
    rcases hno with he | hw'
    · exact absurd rfl he
    · rw [hw] at hw'; cases hw'

/-- How much a command wrote and read is what its first error and its lengths say. -/
theorem exec_counts {i : Instr} {s t : State} (h : exec i s = .next t) :
    writeCount s t = (if s.regs.fatal = false ∧ firstError i s = .ok then outputLen i s else 0) ∧
      readCount s t =
        (if s.regs.fatal = false ∧ firstError i s = .ok ∧ writesMemory i = true then inputLen i s else 0) := by
  cases hf : s.regs.fatal with
  | true => simp [writeCount, readCount, hf]
  | false =>
    have hend := exec_ending h
    have herr : t.regs.err = 0 ↔ firstError i s = .ok := by rw [exec_err hf h, errNumber_eq_zero]
    by_cases he : t.regs.err = 0
    · have hok := herr.mp he
      cases hw : writesMemory i with
      | true =>
        obtain ⟨hwritten, hconsumed, -⟩ := hend.completed hf he hw
        simp [writeCount, readCount, hf, hok, hwritten, hconsumed]
      | false =>
        obtain ⟨hwritten, hconsumed⟩ := hend.counts_eq_zero hf (.inr hw)
        simp [writeCount, readCount, hf, hok, hwritten, hconsumed, outputLen_of_not_writes hw]
    · obtain ⟨hwritten, hconsumed⟩ := hend.counts_eq_zero hf (.inl he)
      simp [writeCount, readCount, hf, mt herr.mpr he, hwritten, hconsumed]

/-- How much a command word wrote and read is what `writeRegionLen` and `readRegionLen` say. -/
theorem executeWord_counts {w : Word} {s t : State} (h : executeWord w s = .next t) :
    writeCount s t = writeRegionLen w s ∧ readCount s t = readRegionLen w s := by
  unfold writeRegionLen readRegionLen
  cases hd : decode w with
  | ok i =>
    rw [executeWord_of_decode hd] at h
    exact exec_counts (s := storeCmd w s) h
  | error e =>
    cases hf : s.regs.fatal with
    | true => simp [writeCount, readCount, hf]
    | false =>
      rw [executeWord_of_illegal_of_not_fatal hd hf] at h
      cases h
      simp [writeCount, readCount, hf]

/-- A command word ends as some command does. -/
theorem executeWord_ends {w : Word} {s t : State} (h : executeWord w s = .next t) : ∃ i, Ending i (storeCmd w s) t := by
  cases hd : decode w with
  | ok i =>
    rw [executeWord_of_decode hd] at h
    exact ⟨i, exec_ending h⟩
  | error e =>
    cases hf : s.regs.fatal with
    | true =>
      rw [executeWord_of_illegal hd, guarded, if_pos hf] at h
      cases h
      exact ⟨.div91, .ignored hf⟩
    | false =>
      rw [executeWord_of_illegal_of_not_fatal hd hf] at h
      cases h
      exact ⟨.div91, .error (s := storeCmd w s) hf .illegalCommand (by decide) (by decide) (by decide)⟩

/-- A command keeps the canonical form of the memory. -/
theorem Ending.mem_wf {i : Instr} {s t : State} (h : Ending i s t) (hm : s.mem.wf) : t.mem.wf := by
  cases h with
  | ignored | short | error | fatal | done => exact hm
  | wrote => exact memWrite_wf hm _ _

/-- A command uses no free byte and gives no reply. -/
theorem Ending.fresh_replies {i : Instr} {s t : State} (h : Ending i s t) :
    t.fresh = s.fresh ∧ t.replies = s.replies := by
  rw [h.frame.1]
  exact ⟨rfl, rfl⟩

/-- No byte changes outside what a command has written. -/
theorem Ending.memByte_outside_written {i : Instr} {s t : State} (h : Ending i s t) {a : Nat}
    (ha : a < s.regs.dstAddr.toNat ∨ s.regs.dstAddr.toNat + writeCount s t ≤ a) :
    memByte t.mem a = memByte s.mem a := by
  by_cases hdone : (s.regs.fatal = false ∧ t.regs.err = 0) ∧ writesMemory i = true
  · obtain ⟨⟨hf, he⟩, hw⟩ := hdone
    obtain ⟨hwritten, -⟩ := h.completed hf he hw
    rw [writeCount, if_neg (by simp [hf]), hwritten] at ha
    exact h.memByte_outside ha
  · rcases not_and_or.mp hdone with hfail | hw
    · rw [h.mem_of_failed (by simpa [imp_iff_not_or] using hfail)]
    · rw [h.frame.2 (by simpa using hw)]

/-! ### Touches (R65) -/

/-- Byte `a` is in a region. -/
theorem inRegion_iff {addr n a : Nat} : inRegion addr n a = true ↔ addr ≤ a ∧ a < addr + n := by
  simp [inRegion]

/-- The bytes counted from the start of a region are in it. -/
theorem inRegion_add {addr n k : Nat} (h : k < n) : inRegion addr n (addr + k) = true :=
  inRegion_iff.mpr ⟨Nat.le_add_right _ _, Nat.add_lt_add_left h _⟩

/-- Byte `a` is outside a region. -/
theorem inRegion_eq_false {addr n a : Nat} : inRegion addr n a = false ↔ a < addr ∨ addr + n ≤ a := by
  rw [← Bool.not_eq_true, inRegion_iff]
  omega

/-- Touches leave a byte of the write region, and one that none of them writes, as it was, in every memory. -/
theorem memByte_touches_untouched {addr n a : Nat} {touches : List Touch} {s : State}
    (h : inRegion addr n a = true ∨ ∀ b, Touch.write a b ∉ touches) :
    memByte (touches.foldl (doTouch addr n) s).mem a = memByte s.mem a := by
  induction touches generalizing s with
  | nil => rfl
  | cons x touches ih =>
    rw [List.foldl_cons, ih (h.imp_right fun hno b hb => hno b (List.mem_cons_of_mem x hb))]
    cases x with
    | read c => simp only [doTouch]; split <;> rfl
    | write c b =>
      simp only [doTouch]
      split
      · rfl
      · next hc =>
        refine memByte_memSetByte_ne _ _ fun hac => ?_
        subst hac
        exact h.elim hc fun hno => hno b List.mem_cons_self

/-- Some touch breaks the assumption of R65 on the command that led from `s` to `s'` exactly when the word's command is
disturbed. -/
theorem any_disturbs_iff {w : Word} {s s' : State} (h : executeWord w s = .next s') (touches : List Touch) :
    touches.any (disturbs s s') = true ↔ Disturbed w s touches := by
  obtain ⟨hwrite, hread⟩ := executeWord_counts h
  rw [List.any_eq_true, Disturbed]
  refine exists_congr fun x => and_congr_right fun _ => ?_
  cases x with
  | read a => simp [disturbs, inRegion_iff, touchAddr, hwrite]
  | write a b => simp [disturbs, inRegion_iff, touchAddr, hwrite, hread, or_comm]

/-! ### A command that other agents touch (R65) -/

/-- The state in which the touches of a command that led from `s` to `s'` take place: its write region unspecified when one
of them breaks the assumption of R65. -/
def beforeTouches (touches : List Touch) (s s' : State) : State :=
  if touches.any (disturbs s s') = true then scramble s.regs.dstAddr.toNat (writeCount s s') s' else s'

/-- The state after them. -/
def afterTouches (touches : List Touch) (s s' : State) : State :=
  touches.foldl (doTouch s.regs.dstAddr.toNat (writeCount s s')) (beforeTouches touches s s')

/-- A command whose touches are inside the address space is followed by them. -/
theorem contendedCommand_of_inside {w : Word} {touches : List Touch} {s s' : State}
    (hin : ∀ x ∈ touches, touchAddr x < spaceSize s.cfg) (h : executeWord w s = .next s') :
    contendedCommand w touches s = .next (afterTouches touches s s') := by
  have hnone : touches.find? (fun x => decide (spaceSize s.cfg ≤ touchAddr x)) = none := by simpa using hin
  rw [contendedCommand, hnone]
  dsimp only
  rw [h]
  rfl

section
variable {w : Word} {touches : List Touch} {s s' : State} (h : executeWord w s = .next s')

/-- Without a disturbance the touches find the memory as the command left it. -/
theorem beforeTouches_undisturbed (hd : ¬touches.any (disturbs s s') = true) : beforeTouches touches s s' = s' :=
  if_neg hd

/-- With one they find the write region unspecified. -/
theorem beforeTouches_disturbed (hd : touches.any (disturbs s s') = true) :
    beforeTouches touches s s' = scramble s.regs.dstAddr.toNat (writeCount s s') s' :=
  if_pos hd

/-- Neither the disturbance nor the touches change a register (R65). -/
theorem afterTouches_registers : (afterTouches touches s s').regs = s'.regs ∧
    (afterTouches touches s s').below = s'.below ∧ (afterTouches touches s s').above = s'.above := by
  rw [afterTouches, touches_eq, beforeTouches]
  split <;> exact ⟨rfl, rfl, rfl⟩

/-- Without a disturbance the write region is as the command left it. -/
theorem memByte_afterTouches_undisturbed (hd : ¬touches.any (disturbs s s') = true) {a : Nat}
    (ha : inRegion s.regs.dstAddr.toNat (writeCount s s') a = true) :
    memByte (afterTouches touches s s').mem a = memByte s'.mem a := by
  rw [afterTouches, memByte_touches_untouched (.inl ha), beforeTouches_undisturbed hd]

include h

/-- The touches find a canonical memory when the command did. -/
theorem beforeTouches_wf (hm : s.mem.wf) : (beforeTouches touches s s').mem.wf := by
  obtain ⟨i, hend⟩ := executeWord_ends h
  have hm' : s'.mem.wf := hend.mem_wf hm
  rw [beforeTouches]
  split
  · exact memWrite_wf hm' _ _
  · exact hm'

/-- Outside the write region the touches find what stood there before the command. -/
theorem memByte_beforeTouches_outside {a : Nat}
    (ha : inRegion s.regs.dstAddr.toNat (writeCount s s') a = false) :
    memByte (beforeTouches touches s s').mem a = memByte s'.mem a ∧ memByte s'.mem a = memByte s.mem a := by
  obtain ⟨i, hend⟩ := executeWord_ends h
  rw [inRegion_eq_false] at ha
  refine ⟨?_, hend.memByte_outside_written ha⟩
  rw [beforeTouches]
  split
  · exact memByte_scramble_outside s' ha
  · rfl

/-- The touches find no replies when the command did. -/
theorem beforeTouches_replies (hr : s.replies = []) : (beforeTouches touches s s').replies = [] := by
  obtain ⟨i, hend⟩ := executeWord_ends h
  have hr' : s'.replies = [] := hend.fresh_replies.2.trans hr
  rw [beforeTouches]
  split <;> exact hr'

/-- The touches give one reply a read. -/
theorem afterTouches_replies_length (hr : s.replies = []) :
    (afterTouches touches s s').replies.length = touches.countP isRead := by
  obtain ⟨l, hl, hcount⟩ := touches_replies s.regs.dstAddr.toNat (writeCount s s') touches (beforeTouches touches s s')
  rw [afterTouches, hl, beforeTouches_replies h hr, List.nil_append, hcount]

/-- Outside the write region the last write of the touches stands, over what the command left. -/
theorem memByte_afterTouches_outside (hm : s.mem.wf) {a : Nat}
    (ha : inRegion s.regs.dstAddr.toNat (writeCount s s') a = false) :
    memByte (afterTouches touches s s').mem a = byteAfterTouches a (memByte s'.mem a) touches := by
  rw [afterTouches, (touches_mem _ _ touches (beforeTouches_wf h hm)).2, if_neg (by simp [ha]),
    (memByte_beforeTouches_outside h ha).1]

/-- Outside the write region a byte that no touch writes is as the command left it. -/
theorem memByte_afterTouches_unwritten {a : Nat}
    (ha : inRegion s.regs.dstAddr.toNat (writeCount s s') a = false) (hno : ∀ b, Touch.write a b ∉ touches) :
    memByte (afterTouches touches s s').mem a = memByte s'.mem a := by
  rw [afterTouches, memByte_touches_untouched (.inr hno), (memByte_beforeTouches_outside h ha).1]

/-- With a disturbance the write region holds free bytes. -/
theorem memByte_afterTouches_disturbed (hm : s.mem.wf) (hd : touches.any (disturbs s s') = true) {k : Nat}
    (hk : k < writeCount s s') :
    memByte (afterTouches touches s s').mem (s.regs.dstAddr.toNat + k) = Config.freeByte (s.fresh + k) := by
  obtain ⟨i, hend⟩ := executeWord_ends h
  have hfresh : s'.fresh = s.fresh := hend.fresh_replies.1
  have ha : inRegion s.regs.dstAddr.toNat (writeCount s s') (s.regs.dstAddr.toNat + k) = true :=
    inRegion_add hk
  rw [afterTouches, memByte_touches_untouched (.inl ha), beforeTouches_disturbed hd,
    memByte_scramble_inside (hend.mem_wf hm) hk, hfresh]

/-- A read of the write region gets the free byte after those of the region and of the reads of it before. -/
theorem afterTouches_reply_inside (hr : s.replies = []) {before after : List Touch} {a : Nat}
    (ht : touches = before ++ .read a :: after) (ha : inRegion s.regs.dstAddr.toNat (writeCount s s') a = true) :
    (afterTouches touches s s').replies[before.countP isRead]? = some ((Config.freeByte
      (s.fresh + writeCount s s' + before.countP (readsWriteRegion w s))).setWidth 64) := by
  obtain ⟨i, hend⟩ := executeWord_ends h
  have hfresh : s'.fresh = s.fresh := hend.fresh_replies.1
  have hd : touches.any (disturbs s s') = true := List.any_eq_true.mpr ⟨.read a, by simp [ht], ha⟩
  have hreads : (fun x => isRead x && inRegion s.regs.dstAddr.toNat (writeCount s s') (touchAddr x)) =
      readsWriteRegion w s := by
    funext x
    rw [(executeWord_counts h).1]
    cases x <;> rfl
  subst ht
  rw [afterTouches, touches_reply _ _ before after a (beforeTouches_replies h hr), if_pos ha, touches_fresh, hreads,
    beforeTouches_disturbed hd, scramble_fresh, hfresh]

/-- A read outside it gets the byte that stands there after the touches before it. -/
theorem afterTouches_reply_outside (hm : s.mem.wf) (hr : s.replies = []) {before after : List Touch} {a : Nat}
    (ht : touches = before ++ .read a :: after) (ha : inRegion s.regs.dstAddr.toNat (writeCount s s') a = false) :
    (afterTouches touches s s').replies[before.countP isRead]? =
      some ((byteAfterTouches a (memByte s.mem a) before).setWidth 64) := by
  obtain ⟨hbefore, hafter⟩ := memByte_beforeTouches_outside (touches := touches) h ha
  subst ht
  rw [afterTouches, touches_reply _ _ before after a (beforeTouches_replies h hr), if_neg (by simp [ha]),
    (touches_mem _ _ before (beforeTouches_wf h hm)).2, if_neg (by simp [ha]), hbefore, hafter]

end

/-- Settles O16: the command, then the write region unspecified if it was disturbed, then the touches. -/
theorem disturbedBytesAreUnspecified : Obligations.DisturbedBytesAreUnspecified := by
  intro s s1 u w touches rest hp hu hin
  obtain ⟨-, -, -, he⟩ := focusUnit_eq_some hu
  have hmem : s1.mem = s.mem := by rw [he]
  have hfresh : s1.fresh = s.fresh := by rw [he]
  obtain ⟨s', hs'⟩ := executeWord_next w { s1 with pending := rest, replies := [] }
  have hlen : writeCount { s1 with pending := rest, replies := [] } s' = writeRegionLen w s1 := (executeWord_counts hs').1
  have hany := any_disturbs_iff hs' touches
  obtain ⟨hregs, hbelow, habove⟩ := afterTouches_registers (touches := touches)
    (s := { s1 with pending := rest, replies := [] }) (s' := s')
  refine ⟨_, s', ?_, hs', hregs, hbelow, habove, ?_⟩
  · rw [step_onUnit hp rfl hu]
    exact contendedCommand_of_inside (by rw [focusUnit_cfg hu]; exact hin) hs'
  rw [← hmem, ← hfresh, ← hlen]
  refine ⟨fun a ha => ?_, fun hm a ha => ?_, fun hd k hk => ?_, fun hd hm k hk => ?_, ?_,
    fun before after a ht => ⟨fun ha => ?_, fun hm ha => ?_⟩⟩
  · exact memByte_afterTouches_unwritten hs' (inRegion_eq_false.mpr ha)
  · exact memByte_afterTouches_outside hs' hm (inRegion_eq_false.mpr ha)
  · exact memByte_afterTouches_undisturbed (mt hany.mp hd) (inRegion_add hk)
  · exact memByte_afterTouches_disturbed hs' hm (hany.mpr hd) hk
  · exact afterTouches_replies_length hs' rfl
  · exact afterTouches_reply_inside hs' rfl ht (inRegion_iff.mpr ha)
  · exact afterTouches_reply_outside hs' hm rfl ht (inRegion_eq_false.mpr ha)

end Sys2Proof.Machine

/-! PROOFS. Decoding and encoding of the command word, and the two statements about the tier it names
(spec/30_encoding.md R70 to R84, spec/60_exceptions.md R213). -/

namespace Sys2Proof

/-! ### The fields of a word as numbers (R70) -/

/-- Bits `lo` to `lo + n - 1` of a word, as a number. -/
theorem toNat_field (w : Word) (lo n : Nat) : (w.extractLsb' lo n).toNat = w.toNat / 2 ^ lo % 2 ^ n := by
  rw [BitVec.extractLsb'_toNat, Nat.shiftRight_eq_div_pow]

theorem toNat_opField (w : Word) : (opField w).toNat = w.toNat % 256 := by
  simp [opField]

theorem toNat_tierField (w : Word) : (tierField w).toNat = w.toNat / 256 % 8 := toNat_field w 8 3

theorem toNat_finalField (w : Word) : (finalField w).toNat = w.toNat / 2048 % 2 := by
  rw [finalField, BitVec.getLsbD, Nat.toNat_testBit]

theorem toNat_nField (w : Word) : (nField w).toNat = w.toNat / 4096 % 16 := toNat_field w 12 4

theorem reservedField_eq_zero {w : Word} : reservedField w = 0 ↔ w.toNat / 65536 = 0 := by
  have hw : w.toNat < 2 ^ 32 := w.isLt
  rw [← BitVec.toNat_inj, reservedField, toNat_field]
  change _ = 0 ↔ _
  omega

/-- A packed word is the sum of its fields at their places. -/
theorem toNat_packCommand (op : BitVec 8) (t : Tier) (f : Bool) (n : BitVec 4) :
    (packCommand op t f n).toNat = op.toNat + 256 * (tierCode t).toNat + 2048 * f.toNat + 4096 * n.toNat := by
  have hop : op.toNat < 2 ^ 8 := op.isLt
  have ht : (tierCode t).toNat < 2 ^ 3 := (tierCode t).isLt
  have hf : (BitVec.ofBool f).toNat < 2 ^ 1 := (BitVec.ofBool f).isLt
  have hn : n.toNat < 2 ^ 4 := n.isLt
  simp only [packCommand, BitVec.toNat_append, ← Nat.shiftLeft_add_eq_or_of_lt hop, ← Nat.shiftLeft_add_eq_or_of_lt ht,
    ← Nat.shiftLeft_add_eq_or_of_lt hf, ← Nat.shiftLeft_add_eq_or_of_lt hn]
  simp only [Nat.shiftLeft_eq, BitVec.toNat_ofNat, BitVec.toNat_ofBool]
  omega

/-- A word without reserved bits is packed from its fields. -/
theorem packCommand_of_fields {w : Word} {t : Tier} (hr : reservedField w = 0) (ht : tierField w = tierCode t) :
    packCommand (opField w) t (finalField w) (nField w) = w := by
  have hr' : w.toNat / 65536 = 0 := reservedField_eq_zero.mp hr
  rw [← BitVec.toNat_inj, toNat_packCommand, ← ht, toNat_opField, toNat_tierField, toNat_finalField, toNat_nField]
  omega

/-! ### The codes of the fields (R72, R74) -/

theorem tierOfCode_eq_some {c : BitVec 3} {t : Tier} : tierOfCode c = some t ↔ c = tierCode t := by
  cases t <;> revert c <;> decide

theorem exists_tierCode_eq {c : BitVec 3} : (∃ t, c = tierCode t) ↔ c.toNat ≤ 5 := by
  constructor
  · rintro ⟨t, rfl⟩
    exact Laws.WordFields.tierCode_le t
  · intro h
    have hsome : (tierOfCode c).isSome := by revert c; decide
    obtain ⟨t, ht⟩ := Option.isSome_iff_exists.mp hsome
    exact ⟨t, tierOfCode_eq_some.mp ht⟩

theorem tierCode_eq_zero {t : Tier} : (tierCode t).toNat = 0 ↔ t = .auto := by cases t <;> decide

theorem unitOfCode_eq_some {c : BitVec 4} {u : UnitSize} : unitOfCode c = some u ↔ c = unitCode u := by
  cases u <;> revert c <;> decide

theorem exists_unitCode_eq {c : BitVec 4} : (∃ u, unitOfCode c = some u) ↔ c.toNat ≤ 2 := by
  rw [← Option.isSome_iff_exists]
  revert c
  decide

/-! ### The decoder's four kinds of row (R78) -/

theorem decodePlain_eq_ok {t : Tier} {f : Bool} {n : BitVec 4} {i j : Instr} :
    decodePlain t f n i = .ok j ↔ (t = .auto ∧ f = false ∧ n = 0) ∧ i = j := by
  unfold decodePlain
  split_ifs with h
  · simp [h]
  · exact ⟨nofun, fun hj => absurd hj.1 h⟩

theorem decodeUnitSize_eq_ok {t : Tier} {f : Bool} {n : BitVec 4} {mk : UnitSize → Tier → Instr} {i : Instr} :
    decodeUnitSize t f n mk = .ok i ↔ f = false ∧ ∃ u, unitOfCode n = some u ∧ mk u t = i := by
  unfold decodeUnitSize
  cases f <;> cases unitOfCode n <;> simp

theorem decodeTailLength_eq_ok {t : Tier} {f : Bool} {n : BitVec 4} {bound : Nat} {mk : BitVec 4 → Tier → Instr}
    {i : Instr} : decodeTailLength t f n bound mk = .ok i ↔ f = false ∧ n.toNat ≤ bound ∧ mk n t = i := by
  unfold decodeTailLength
  cases f
  · by_cases hn : n.toNat ≤ bound
    · simp [hn, not_lt.mpr hn]
    · simp [hn, not_le.mp hn]
  · simp

theorem decodeFinal_eq_ok {t : Tier} {f : Bool} {n : BitVec 4} {mk : Bool → Tier → Instr} {i : Instr} :
    decodeFinal t f n mk = .ok i ↔ n = 0 ∧ mk f t = i := by
  unfold decodeFinal
  split_ifs with h
  · simp [h]
  · exact ⟨nofun, fun hj => absurd hj.1 h⟩

/-- A word decodes when its reserved bits are zero, its T is a code and its operation reads its other fields (R81). -/
theorem decode_eq_ok {w : Word} {i : Instr} :
    decode w = .ok i ↔ reservedField w = 0 ∧
      ∃ t, tierField w = tierCode t ∧ decodeOp (opField w) t (finalField w) (nField w) = .ok i := by
  simp only [← tierOfCode_eq_some]
  unfold decode
  split_ifs with hr
  · exact ⟨nofun, fun hj => absurd hj.1 hr⟩
  · cases tierOfCode (tierField w) <;> simp [not_not.mp hr]

/-! ### Decoding inverts encoding -/

/-- A packed word decodes by its operation from the fields it was packed from. -/
theorem decode_packCommand {op : BitVec 8} {t : Tier} {f : Bool} {n : BitVec 4} {i : Instr}
    (h : decodeOp op t f n = .ok i) : decode (packCommand op t f n) = .ok i := by
  obtain ⟨hop, ht, hf, hn, hr⟩ := Laws.WordFields.packCommand_fields op t f n
  rw [decode_eq_ok, hop, hf, hn]
  exact ⟨hr, t, ht, h⟩

/-- Settles O1: the operation of each row reads back the fields its command was packed from. -/
theorem decodeInvertsEncode : Obligations.DecodeInvertsEncode := by
  intro i hwf
  cases i with
  | div91 | encpair | decpair | digenc | digdec | split | merge | enclen | declen | validate =>
    exact decode_packCommand rfl
  | encblk u | decblk u =>
    exact decode_packCommand (decodeUnitSize_eq_ok.mpr ⟨rfl, u, unitOfCode_eq_some.mpr rfl, rfl⟩)
  | enctail n => exact decode_packCommand (decodeTailLength_eq_ok.mpr ⟨rfl, of_decide_eq_true hwf, rfl⟩)
  | dectail m => exact decode_packCommand (decodeTailLength_eq_ok.mpr ⟨rfl, Nat.le_of_lt_succ m.isLt, rfl⟩)
  | encode | decode => exact decode_packCommand (decodeFinal_eq_ok.mpr ⟨rfl, rfl⟩)

/-- Settles O4: the words are those of their commands. -/
theorem commandWordsDecode : Obligations.CommandWordsDecode :=
  ⟨decodeInvertsEncode .div91 rfl, decodeInvertsEncode .decpair rfl, decodeInvertsEncode .merge rfl,
    decodeInvertsEncode (.encblk .two .scalar) rfl, decodeInvertsEncode (.decblk .four .v512) rfl,
    decodeInvertsEncode (.enctail 12 .auto) rfl, decodeInvertsEncode (.dectail 15 .auto) rfl,
    decodeInvertsEncode (.encode true .auto) rfl, decodeInvertsEncode (.encode false .v512) rfl,
    decodeInvertsEncode (.decode false .auto) rfl, decodeInvertsEncode .validate rfl⟩

/-! ### Encoding inverts decoding -/

/-- `i` is well-formed and its word is packed from the given fields. -/
def PacksTo (op : BitVec 8) (t : Tier) (f : Bool) (n : BitVec 4) (i : Instr) : Prop :=
  i.WellFormed ∧ encode i = packCommand op t f n

/-- The rows of R76 by the fields they read (R78): what `decodeOp` is for each OP, and that a command it can give packs to
the fields it was read from. -/
inductive OpRow (t : Tier) (f : Bool) (n : BitVec 4) (op : BitVec 8) : Except Illegal Instr → Prop where
  | plain {i : Instr} (hop : op.toNat ∈ [0x01, 0x02, 0x03, 0x04, 0x05, 0x08, 0x09, 0x22, 0x23, 0x24])
      (hi : PacksTo op .auto false 0 i) : OpRow t f n op (decodePlain t f n i)
  | unitSize {mk : UnitSize → Tier → Instr} (hop : op.toNat ∈ [0x10, 0x11])
      (hmk : ∀ u, PacksTo op t false (unitCode u) (mk u t)) : OpRow t f n op (decodeUnitSize t f n mk)
  | enctail (hop : op.toNat = 0x12) (hmk : n.toNat ≤ 12 → PacksTo op t false n (.enctail n t)) :
      OpRow t f n op (decodeTailLength t f n 12 .enctail)
  | dectail (hop : op.toNat = 0x13) (hmk : PacksTo op t false n (.dectail n t)) :
      OpRow t f n op (decodeTailLength t f n 15 .dectail)
  | final {mk : Bool → Tier → Instr} (hop : op.toNat ∈ [0x20, 0x21]) (hmk : PacksTo op t f 0 (mk f t)) :
      OpRow t f n op (decodeFinal t f n mk)
  | missing (hop : op.toNat ∉ [0x01, 0x02, 0x03, 0x04, 0x05, 0x08, 0x09, 0x10, 0x11, 0x12, 0x13, 0x20, 0x21, 0x22,
      0x23, 0x24]) : OpRow t f n op (.error .operation)

/-- Every OP value has its row, or is missing from the table. -/
theorem opRow_decodeOp (op : BitVec 8) (t : Tier) (f : Bool) (n : BitVec 4) : OpRow t f n op (decodeOp op t f n) := by
  unfold decodeOp
  iterate 7 refine iteInduction (by rintro rfl; exact .plain (by decide) ⟨rfl, rfl⟩) fun _ => ?_
  iterate 2 refine iteInduction (by rintro rfl; exact .unitSize (by decide) fun _ => ⟨rfl, rfl⟩) fun _ => ?_
  refine iteInduction (by rintro rfl; exact .enctail rfl fun hn => ⟨decide_eq_true hn, rfl⟩) fun _ => ?_
  refine iteInduction (by rintro rfl; exact .dectail rfl ⟨rfl, rfl⟩) fun _ => ?_
  iterate 2 refine iteInduction (by rintro rfl; exact .final (by decide) ⟨rfl, rfl⟩) fun _ => ?_
  iterate 3 refine iteInduction (by rintro rfl; exact .plain (by decide) ⟨rfl, rfl⟩) fun _ => ?_
  exact .missing (by simp_all [← BitVec.toNat_inj])

/-- What an operation decodes to packs to the fields it was decoded from. -/
theorem packsTo_of_decodeOp {op : BitVec 8} {t : Tier} {f : Bool} {n : BitVec 4} {i : Instr}
    (h : decodeOp op t f n = .ok i) : PacksTo op t f n i := by
  have hrow := opRow_decodeOp op t f n
  rw [h] at hrow
  generalize hr : Except.ok i = r at hrow
  cases hrow with
  | plain _ hi =>
    obtain ⟨⟨rfl, rfl, rfl⟩, rfl⟩ := decodePlain_eq_ok.mp hr.symm
    exact hi
  | unitSize _ hmk =>
    obtain ⟨rfl, u, hu, rfl⟩ := decodeUnitSize_eq_ok.mp hr.symm
    rw [unitOfCode_eq_some.mp hu]
    exact hmk u
  | enctail _ hmk =>
    obtain ⟨rfl, hn, rfl⟩ := decodeTailLength_eq_ok.mp hr.symm
    exact hmk hn
  | dectail _ hmk =>
    obtain ⟨rfl, -, rfl⟩ := decodeTailLength_eq_ok.mp hr.symm
    exact hmk
  | final _ hmk =>
    obtain ⟨rfl, rfl⟩ := decodeFinal_eq_ok.mp hr.symm
    exact hmk
  | missing => cases hr

/-- Settles O2: the command packs to the word's fields, and a word without reserved bits is its fields. -/
theorem encodeInvertsDecode : Obligations.EncodeInvertsDecode := by
  intro w i h
  obtain ⟨hr, t, ht, hop⟩ := decode_eq_ok.mp h
  obtain ⟨hwf, henc⟩ := packsTo_of_decodeOp hop
  exact ⟨hwf, henc.trans (packCommand_of_fields hr ht)⟩

/-! ### The legal words (R78, R79) -/

/-- T, F and N meet the condition of the row of R78 that holds OP. -/
def MeetsRow (op t f n : Nat) : Prop :=
  (op ∈ [0x01, 0x02, 0x03, 0x04, 0x05, 0x08, 0x09, 0x22, 0x23, 0x24] ∧ t = 0 ∧ f = 0 ∧ n = 0) ∨
  (op ∈ [0x10, 0x11] ∧ f = 0 ∧ n ≤ 2) ∨
  (op = 0x12 ∧ f = 0 ∧ n ≤ 12) ∨
  (op = 0x13 ∧ f = 0) ∨
  (op ∈ [0x20, 0x21] ∧ n = 0)

section
variable {op t f n : Nat}

theorem meetsRow_plain (h : op ∈ [0x01, 0x02, 0x03, 0x04, 0x05, 0x08, 0x09, 0x22, 0x23, 0x24]) :
    MeetsRow op t f n ↔ t = 0 ∧ f = 0 ∧ n = 0 := by
  revert op; simp [MeetsRow]

theorem meetsRow_unitSize (h : op ∈ [0x10, 0x11]) : MeetsRow op t f n ↔ f = 0 ∧ n ≤ 2 := by
  revert op; simp [MeetsRow]

theorem meetsRow_final (h : op ∈ [0x20, 0x21]) : MeetsRow op t f n ↔ n = 0 := by
  revert op; simp [MeetsRow]

/-- The rows of R78 fail exactly for the OP values and fields that R79 lists. -/
theorem not_meetsRow : ¬MeetsRow op t f n ↔
    op ∉ [0x01, 0x02, 0x03, 0x04, 0x05, 0x08, 0x09, 0x10, 0x11, 0x12, 0x13, 0x20, 0x21, 0x22, 0x23, 0x24] ∨
      (op ∈ [0x01, 0x02, 0x03, 0x04, 0x05, 0x08, 0x09, 0x22, 0x23, 0x24] ∧ (t ≠ 0 ∨ f ≠ 0 ∨ n ≠ 0)) ∨
      (op ∈ [0x10, 0x11, 0x12, 0x13] ∧ f ≠ 0) ∨ (op ∈ [0x20, 0x21] ∧ n ≠ 0) ∨
      (op ∈ [0x10, 0x11] ∧ 3 ≤ n) ∨ (op = 0x12 ∧ 13 ≤ n) := by
  by_cases hop : op ∈ [0x01, 0x02, 0x03, 0x04, 0x05, 0x08, 0x09, 0x10, 0x11, 0x12, 0x13, 0x20, 0x21, 0x22, 0x23, 0x24]
  · revert op
    simp [MeetsRow]
    omega
  · simp_all [MeetsRow]

end

/-- An operation decodes exactly when the fields meet its row. -/
theorem exists_decodeOp_eq_ok {op : BitVec 8} {t : Tier} {f : Bool} {n : BitVec 4} :
    (∃ i, decodeOp op t f n = .ok i) ↔ MeetsRow op.toNat (tierCode t).toNat f.toNat n.toNat := by
  have hn : n.toNat ≤ 15 := Nat.le_of_lt_succ n.isLt
  have hrow := opRow_decodeOp op t f n
  generalize decodeOp op t f n = r at hrow
  cases hrow with
  | plain hop => simp [meetsRow_plain hop, decodePlain_eq_ok, tierCode_eq_zero, ← BitVec.toNat_inj]
  | unitSize hop => simp [meetsRow_unitSize hop, decodeUnitSize_eq_ok, ← exists_unitCode_eq]
  | enctail hop => simp [hop, MeetsRow, decodeTailLength_eq_ok]
  | dectail hop => simp [hop, MeetsRow, decodeTailLength_eq_ok, hn]
  | final hop => simp [meetsRow_final hop, decodeFinal_eq_ok, ← BitVec.toNat_inj]
  | missing hop => simp [not_meetsRow.mpr (.inl hop)]

/-- A word decodes exactly when its reserved bits are zero, T is a tier code and the fields meet the row of OP. -/
theorem exists_decode_eq_ok {w : Word} : (∃ i, decode w = .ok i) ↔ w.toNat / 65536 = 0 ∧ w.toNat / 256 % 8 ≤ 5 ∧
    MeetsRow (w.toNat % 256) (w.toNat / 256 % 8) (w.toNat / 2048 % 2) (w.toNat / 4096 % 16) := by
  rw [← reservedField_eq_zero, ← toNat_opField, ← toNat_tierField, ← toNat_finalField, ← toNat_nField,
    ← exists_tierCode_eq]
  constructor
  · rintro ⟨i, h⟩
    obtain ⟨hr, t, ht, hop⟩ := decode_eq_ok.mp h
    exact ⟨hr, ⟨t, ht⟩, ht ▸ exists_decodeOp_eq_ok.mp ⟨i, hop⟩⟩
  · rintro ⟨hr, ⟨t, ht⟩, hrow⟩
    obtain ⟨i, hop⟩ := exists_decodeOp_eq_ok.mpr (ht ▸ hrow)
    exact ⟨i, decode_eq_ok.mpr ⟨hr, t, ht, hop⟩⟩

/-- Settles O3: the reserved bits, the tier code and the row of OP are tested in turn. -/
theorem legalWordsAreTheTable : Obligations.LegalWordsAreTheTable := fun _ => exists_decode_eq_ok

theorem exists_decode_eq_error {w : Word} : (∃ e, decode w = .error e) ↔ ¬∃ i, decode w = .ok i := by
  cases decode w <;> simp

open Machine in
/-- Settles O5: the list of R79 is what fails the table of R78, and the guard stops an illegal word. -/
theorem illegalWordsRaiseIllegalCommand : Obligations.IllegalWordsRaiseIllegalCommand := by
  refine fun w => ⟨?_, fun s ⟨e, he⟩ hf => executeWord_of_illegal_of_not_fatal he hf⟩
  rw [exists_decode_eq_error, exists_decode_eq_ok, not_and_or, not_and_or, not_meetsRow, not_le]
  exact or_left_comm.trans ((or_congr_right or_left_comm).trans or_left_comm)

end Sys2Proof

/-! PROOFS. The tier a command names (spec/30_encoding.md R72, R84, spec/60_exceptions.md R213). -/

namespace Sys2Proof.Machine

/-- Every command is a rule under the guard, with its own check and its own tier (R84). -/
theorem exec_eq_guarded (i : Instr) (s : State) :
    ∃ rule : State → State, exec i s = .next (guarded i.wellFormed (tierOf i) rule s) := by
  cases i <;> exact ⟨_, rfl⟩

/-- A well-formed command whose tier is absent ends with the fatal error (R213). -/
theorem exec_of_absent {i : Instr} {s : State} (hwf : i.WellFormed) (hf : s.regs.fatal = false)
    (ht : tierPresent s.cfg (tierOf i) = false) : exec i s = .next (raiseFatal s) := by
  obtain ⟨rule, he⟩ := exec_eq_guarded i s
  rw [he]
  simp [guarded, hwf, hf, ht]

/-- Only UNSUPPORTED_OPERATION has code 5 (R211). -/
theorem errNumber_eq_five {e : ErrCode} : errNumber e = 5 ↔ e = .unsupportedOperation := by cases e <;> decide

/-- Only the fatal ending leaves FATAL set or ERR 5 behind a command that found FATAL clear. -/
theorem Ending.fatal_cause {i : Instr} {s t : State} (h : Ending i s t) (hf : s.regs.fatal = false)
    (ht : t.regs.fatal = true ∨ t.regs.err = 5) : i.WellFormed ∧ tierPresent s.cfg (tierOf i) = false := by
  cases h with
  | ignored hf' => simp [hf] at hf'
  | short => simp [hf, errNumber] at ht
  | error _ _ _ _ h5 =>
    rw [raise_fatal, hf, raise_err, errNumber_eq_five] at ht
    exact absurd ht (by simp [h5])
  | fatal _ hl htier => exact ⟨hl, htier⟩
  | done => simp [hf] at ht
  | wrote => simp [hf] at ht

/-- Settles O14: the guard raises the fatal error for an absent tier, and no other ending does. -/
theorem absentTierIsFatal : Obligations.AbsentTierIsFatal :=
  ⟨fun _ _ => exec_of_absent, fun _ _ _ hf h => (exec_ending h).fatal_cause hf, fun _ => ⟨rfl, rfl⟩⟩

/-- The guard treats two present tiers alike. -/
theorem guarded_of_present {legal : Bool} {t t' : Tier} {rule : State → State} {s : State}
    (ht : tierPresent s.cfg t = true) (ht' : tierPresent s.cfg t' = true) :
    guarded legal t rule s = guarded legal t' rule s := by
  simp [guarded, ht, ht']

/-- Settles O22: the tier of a command reaches its guard alone. -/
theorem tierChangesNoResult : Obligations.TierChangesNoResult := by
  intro i t s ht ht'
  cases i with
  | div91 | encpair | decpair | digenc | digdec | split | merge | enclen | declen | validate => rfl
  | encblk | decblk | enctail | dectail | encode | decode => exact congrArg _ (guarded_of_present ht ht')

end Sys2Proof.Machine

/-! PROOFS. The digit codec and its five commands, and the alphabet of the encoder's output (spec/40_digit_codec.md R100
to R114, spec/44_streaming.md R183, R189). -/

namespace Sys2Proof.Machine

/-! ### Division by 91 (R100, R101) -/

/-- The product form is `v div 91` as long as the excess of 91 * 2881 over 2^18, which is 27, stays small. -/
theorem div91_fst {v : Nat} (h : v < 9736) : (div91 v).1 = v / 91 := by
  simp only [div91, Nat.shiftRight_eq_div_pow]
  omega

theorem div91_eq {v : Nat} (h : v < 9736) : div91 v = (v / 91, v % 91) := by
  have hq := div91_fst h
  have hr : (div91 v).2 = v - 91 * (div91 v).1 := rfl
  exact Prod.ext hq (by rw [hr, hq, Nat.mod_def])

/-- Settles O38: 8192 lies below the bound of the product form, and 9736 is checked. -/
theorem div91IsExact : Obligations.Div91IsExact := by
  refine ⟨fun v h => ?_, fun v => div91_fst, by decide⟩
  rw [div91_eq (by omega)]
  refine ⟨rfl, ?_, ?_⟩ <;> dsimp only <;> omega

/-! ### Symbols and digits (R102 to R105) -/

theorem toNat_sym (d : Byte) :
    (sym d).toNat = if (d.toNat + 0x23) % 256 = 0x5C then 0x7E else (d.toNat + 0x23) % 256 := by
  have hsum : (d + 0x23).toNat = (d.toNat + 0x23) % 256 := BitVec.toNat_add d 0x23
  simp only [sym, ← BitVec.toNat_inj, apply_ite BitVec.toNat, hsum]
  rfl

theorem toNat_dig (b : Byte) :
    (dig b).toNat = if (b.toNat + 256 - 0x23) % 256 = 91 then 57 else (b.toNat + 256 - 0x23) % 256 := by
  have hdiff : (b - 0x23).toNat = (b.toNat + 256 - 0x23) % 256 := by
    rw [BitVec.toNat_sub]
    change (256 - 0x23 + b.toNat) % 256 = _
    omega
  simp only [dig, ← BitVec.toNat_inj, apply_ite BitVec.toNat, hdiff]
  rfl

theorem inAlpha_iff {b : Byte} :
    inAlpha b = true ↔ (0x23 ≤ b.toNat ∧ b.toNat ≤ 0x7D ∧ b.toNat ≠ 0x5C) ∨ b.toNat = 0x7E := by
  simp [inAlpha, and_assoc]

/-- On the digits the sum does not wrap, and 57 is the one whose sum is 0x5C. -/
theorem toNat_sym_of_digit {d : Byte} (h : d.toNat ≤ 90) : (sym d).toNat = digitSymbol d.toNat := by
  rw [toNat_sym, digitSymbol]
  split_ifs <;> omega

theorem inAlpha_sym {d : Byte} (h : d.toNat ≤ 90) : inAlpha (sym d) = true := by
  rw [inAlpha_iff, toNat_sym_of_digit h, digitSymbol]
  split_ifs <;> omega

theorem dig_sym {d : Byte} (h : d.toNat ≤ 90) : dig (sym d) = d := by
  rw [← BitVec.toNat_inj, toNat_dig, toNat_sym_of_digit h, digitSymbol]
  split_ifs <;> omega

theorem toNat_dig_le {b : Byte} (h : inAlpha b = true) : (dig b).toNat ≤ 90 := by
  rw [inAlpha_iff] at h
  rw [toNat_dig]
  split_ifs <;> omega

theorem sym_dig {b : Byte} (h : inAlpha b = true) : sym (dig b) = b := by
  rw [← BitVec.toNat_inj, toNat_sym_of_digit (toNat_dig_le h), digitSymbol, toNat_dig]
  rw [inAlpha_iff] at h
  split_ifs <;> omega

/-- Settles O39: each of `sym` and `dig` undoes the other, on the digits and on the alphabet. -/
theorem symbolsAndDigitsAgree : Obligations.SymbolsAndDigitsAgree :=
  ⟨fun _ h => ⟨inAlpha_sym h, dig_sym h⟩, fun _ h => ⟨toNat_dig_le h, sym_dig h⟩, rfl, rfl⟩

/-! ### Pairs (R106 to R108) -/

/-- The two symbols of a 13-bit value are those of its remainder and its quotient by 91, both of them digits (R106). -/
theorem exists_pair_digits {v : Nat} (h : v < 8192) :
    ∃ r q : Byte, (r.toNat = v % 91 ∧ r.toNat ≤ 90 ∧ remSym v = sym r) ∧
      (q.toNat = v / 91 ∧ q.toNat ≤ 90 ∧ quoSym v = sym q) := by
  have hdigit {d : Nat} (hd : d ≤ 90) : (BitVec.ofNat 8 d).toNat = d := by
    rw [BitVec.toNat_ofNat]
    omega
  have hr : v % 91 ≤ 90 := by omega
  have hq : v / 91 ≤ 90 := by omega
  refine ⟨BitVec.ofNat 8 (v % 91), BitVec.ofNat 8 (v / 91), ?_, ?_⟩
  · rw [hdigit hr, remSym, div91_eq (by omega)]
    exact ⟨rfl, hr, rfl⟩
  · rw [hdigit hq, quoSym, div91_eq (by omega)]
    exact ⟨rfl, hq, rfl⟩

/-- The low 13 bits of a number are what is left of it modulo 8192. -/
theorem slice_low13 (v : Nat) : slice v 12 0 = v % 8192 := rfl

/-- No pair of bytes reaches 2^16, so the lane value is the plain sum (R107). -/
theorem decPair_eq (b0 b1 : Byte) :
    decPair b0 b1 =
      (((dig b0).toNat + 91 * (dig b1).toNat) % 8192, (dig b0).toNat + 91 * (dig b1).toNat) := by
  have h0 := (dig b0).isLt
  have h1 := (dig b1).isLt
  have hsum : ((dig b0).toNat + 91 * (dig b1).toNat) % 2 ^ 16 = (dig b0).toNat + 91 * (dig b1).toNat :=
    Nat.mod_eq_of_lt (by omega)
  rw [decPair, hsum, slice_low13]

/-- The two digits of a value give it back as remainder and quotient by 91. -/
theorem decPair_encoded {v : Nat} (h : v < 8192) : decPair (remSym v) (quoSym v) = (v, v) := by
  obtain ⟨r, q, ⟨hr, hr90, hrem⟩, ⟨hq, hq90, hquo⟩⟩ := exists_pair_digits h
  have hv : r.toNat + 91 * q.toNat = v := by rw [hr, hq, Nat.mod_add_div]
  rw [hrem, hquo, decPair_eq, dig_sym hr90, dig_sym hq90, hv, Nat.mod_eq_of_lt h]

/-- Settles O40: the two digits of an alphabet pair are at most 90, and 91 * 90 + 2 is 8192. -/
theorem pairsRoundTrip : Obligations.PairsRoundTrip := by
  refine ⟨fun v => decPair_encoded, fun b0 b1 hb0 hb1 => ?_⟩
  have h0 : (dig b0).toNat ≤ 90 := toNat_dig_le hb0
  have h1 : (dig b1).toNat ≤ 90 := toNat_dig_le hb1
  rw [decPair_eq]
  dsimp only
  omega

/-- The word of a pair has the remainder symbol in its low byte and the quotient symbol above (R106). -/
theorem pairWord_eq {v : Nat} (h : v < 8192) : pairWord v = digitSymbol (v % 91) + 256 * digitSymbol (v / 91) := by
  obtain ⟨r, q, ⟨hr, hr90, hrem⟩, ⟨hq, hq90, hquo⟩⟩ := exists_pair_digits h
  calc pairWord v
      = (sym q).toNat <<< 8 + (sym r).toNat := by
        rw [pairWord, hrem, hquo, Nat.or_comm, Nat.shiftLeft_add_eq_or_of_lt (sym r).isLt]
    _ = digitSymbol (v % 91) + 256 * digitSymbol (v / 91) := by
        rw [toNat_sym_of_digit hr90, toNat_sym_of_digit hq90, hr, hq, Nat.shiftLeft_eq]
        omega

/-! ### The commands (R110 to R114) -/

/-- A register-only command completes with its two results and zero counts. -/
theorem complete_eq_withResults (a b : Nat) (s : State) :
    complete a b 0 0 0 s = withResults s (BitVec.ofNat 64 a) (BitVec.ofNat 32 b) := rfl

/-- A command without a tier field runs its rule whenever FATAL is clear. -/
theorem guarded_auto {rule : State → State} {s : State} (hf : s.regs.fatal = false) :
    guarded true .auto rule s = rule s := guarded_run hf rfl rfl

/-- A command of the first row of R78 has one word, its OP with every other field zero. -/
theorem onlyWord_of_plain {op : Nat} {i : Instr}
    (hop : op ∈ [0x01, 0x02, 0x03, 0x04, 0x05, 0x08, 0x09, 0x22, 0x23, 0x24]) (hwf : i.WellFormed)
    (henc : (encode i).toNat = op) : OnlyWord op i := by
  intro w hw
  by_cases h : w.toNat = op
  · have hword : w = encode i := BitVec.eq_of_toNat_eq (h.trans henc.symm)
    exact .inl ⟨h, hword ▸ decodeInvertsEncode i hwf⟩
  · refine .inr ⟨h, exists_decode_eq_error.mpr fun hok => h ?_⟩
    obtain ⟨hres, -, hrow⟩ := exists_decode_eq_ok.mp hok
    rw [hw, meetsRow_plain hop] at hrow
    omega

theorem opa13_eq (s : State) : opa13 s = s.regs.opa.toNat % 8192 := slice_low13 _

theorem opa13_lt (s : State) : opa13 s < 8192 := Nat.mod_lt _ (by decide)

theorem toNat_opaLow (s : State) : (opaLow s).toNat = s.regs.opa.toNat % 256 := by
  rw [opaLow, BitVec.extractLsb'_toNat, Nat.shiftRight_zero]

/-- Settles O24: OPA[12:0] is below the bound of the product form. -/
theorem div91Divides : Obligations.Div91Divides := by
  refine ⟨fun s hf => ?_, onlyWord_of_plain (by decide) rfl rfl⟩
  have hlt := opa13_lt s
  rw [exec, execDiv91, guarded_auto hf, complete_eq_withResults, div91_eq (by omega), opa13_eq]

/-- Settles O25: the word of the pair of OPA[12:0]. -/
theorem encpairGivesTheSymbols : Obligations.EncpairGivesTheSymbols := by
  refine ⟨fun s hf => ?_, onlyWord_of_plain (by decide) rfl rfl⟩
  rw [exec, execEncpair, guarded_auto hf, complete_eq_withResults, pairWord_eq (opa13_lt s), opa13_eq]
  rfl

/-- Settles O26: the two bytes of OPA go to `decPair`, whose sum does not wrap. -/
theorem decpairGivesTheValue : Obligations.DecpairGivesTheValue := by
  refine ⟨fun s hf => ?_, onlyWord_of_plain (by decide) rfl rfl⟩
  have hlow : opaLow s = s.regs.opa.setWidth 8 := BitVec.eq_of_toNat_eq (by simp [opaLow])
  have hhigh : opaHigh s = (s.regs.opa >>> 8).setWidth 8 := BitVec.eq_of_toNat_eq (by simp [opaHigh])
  rw [exec, execDecpair, guarded_auto hf, complete_eq_withResults, decPair_eq, hlow, hhigh]

/-- Settles O27: the number of the symbol of OPA[7:0]. -/
theorem digencGivesTheSymbol : Obligations.DigencGivesTheSymbol := by
  refine ⟨fun s hf => ?_, onlyWord_of_plain (by decide) rfl rfl⟩
  rw [exec, execDigenc, guarded_auto hf, complete_eq_withResults, toNat_sym, toNat_opaLow, apply_ite (BitVec.ofNat 64)]
  rfl

/-- Settles O28: the number of the digit of OPA[7:0]. -/
theorem digdecGivesTheDigit : Obligations.DigdecGivesTheDigit := by
  refine ⟨fun s hf => ?_, onlyWord_of_plain (by decide) rfl rfl⟩
  rw [exec, execDigdec, guarded_auto hf, complete_eq_withResults, toNat_dig, toNat_opaLow, apply_ite (BitVec.ofNat 64)]
  rfl

/-! ### The encoder's output (R104, R183, R189) -/

theorem group_lt (bs : List Byte) (i : Nat) : group bs i < 8192 := by
  have hwidth : 13 * i + 12 + 1 - 13 * i = 13 := by omega
  rw [group, slice, hwidth]
  exact Nat.mod_lt _ (by decide)

theorem inAlpha_of_mem_encPair {v : Nat} (h : v < 8192) {b : Byte} (hb : b ∈ encPair v) : inAlpha b = true := by
  obtain ⟨r, q, ⟨-, hr90, hrem⟩, ⟨-, hq90, hquo⟩⟩ := exists_pair_digits h
  rw [encPair, hrem, hquo, List.mem_pair] at hb
  obtain rfl | rfl := hb
  · exact inAlpha_sym hr90
  · exact inAlpha_sym hq90

theorem inAlpha_of_mem_encBlock13 {bs : List Byte} {b : Byte} (hb : b ∈ encBlock13 bs) : inAlpha b = true := by
  obtain ⟨i, -, hb⟩ := List.mem_flatMap.mp hb
  exact inAlpha_of_mem_encPair (group_lt bs i) hb

theorem inAlpha_of_mem_encBlocks {k : Nat} {bs : List Byte} {b : Byte} (hb : b ∈ encBlocks k bs) :
    inAlpha b = true := by
  induction k generalizing bs with
  | zero => exact absurd hb List.not_mem_nil
  | succ k ih =>
    obtain hb | hb := List.mem_append.mp hb
    · exact inAlpha_of_mem_encBlock13 hb
    · exact ih hb

theorem inAlpha_of_mem_encTail {bs : List Byte} {b : Byte} (hb : b ∈ encTail bs) : inAlpha b = true :=
  inAlpha_of_mem_encBlock13 (List.mem_of_mem_take hb)

/-- The blocks and, on a final call, the tail (R183) are both made of symbols of pairs. -/
theorem inAlpha_of_mem_encodeStream {f : Bool} {bs : List Byte} {b : Byte} (hb : b ∈ encodeStream f bs) :
    inAlpha b = true := by
  obtain hb | hb := List.mem_append.mp hb
  · exact inAlpha_of_mem_encBlocks hb
  · cases f with
    | false => exact absurd hb List.not_mem_nil
    | true => exact inAlpha_of_mem_encTail hb

/-- No tail reaches a whole text block, so quotient and remainder by 16 separate the blocks from the tail (R180, R181). -/
theorem decLen_encLen (n : Nat) : decLen (encLen n) = some n := by
  have htail := encT_le (n % 13)
  have hmod : encLen n % 16 = encT (n % 13) := by rw [encLen]; omega
  have hdiv : encLen n / 16 = n / 13 := by rw [encLen]; omega
  rw [decLen, hmod, hdiv, decT_encT (by omega), Option.map_some, Nat.div_add_mod]

/-- Whole text blocks decode to whole blocks. -/
theorem decLen_blocks (k : Nat) : decLen (16 * k) = some (13 * k) := by
  rw [decLen, Nat.mul_mod_right, Nat.mul_div_cancel_left _ (by decide)]
  rfl

theorem exists_decLen_encodeStream (f : Bool) (bs : List Byte) : ∃ n, decLen (encodeStream f bs).length = some n := by
  rw [encodeStream_length]
  cases f with
  | false => exact ⟨_, decLen_blocks _⟩
  | true => exact ⟨_, decLen_encLen _⟩

/-- Settles O55: the length decodes, and every byte is in the alphabet. -/
theorem encodedTextIsValid : Obligations.EncodedTextIsValid := by
  intro f bs
  have hlen : (decLen (encodeStream f bs).length).isSome = true :=
    Option.isSome_iff_exists.mpr (exists_decLen_encodeStream f bs)
  have halpha : (encodeStream f bs).all inAlpha = true :=
    List.all_eq_true.mpr fun b => inAlpha_of_mem_encodeStream
  rw [validText, hlen, halpha]
  rfl

end Sys2Proof.Machine

/-! PROOFS. The lane packer and its two commands (spec/41_lane_pack.md R130 to R136). -/

namespace Sys2Proof.Machine

/-! ### Fields of 13 bits from one stride to another (R130, R131) -/

/-- The low 13 bits of each of the `n` lowest places of `w` at stride `a`, put at stride `b`. -/
def restride (a b : Nat) : Nat → Nat → Nat
  | 0, _ => 0
  | n + 1, w => w % 2 ^ 13 + 2 ^ b * restride a b n (w / 2 ^ a)

theorem restride_succ (a b n w : Nat) :
    restride a b (n + 1) w = w % 2 ^ 13 + 2 ^ b * restride a b n (w / 2 ^ a) := rfl

theorem restride_four (a b w : Nat) : restride a b 4 w =
    w % 2 ^ 13 + ((w >>> a % 2 ^ 13) <<< b) + ((w >>> (a + a) % 2 ^ 13) <<< (b + b)) +
      ((w >>> (a + a + a) % 2 ^ 13) <<< (b + b + b)) := by
  simp only [restride, Nat.shiftLeft_eq, Nat.shiftRight_eq_div_pow, Nat.pow_add, Nat.div_div_eq_div_mul]
  ring

theorem split_eq_restride (w : Nat) : split w = restride 13 16 4 w := (restride_four 13 16 w).symm

theorem merge_eq_restride (w : Nat) : merge w = restride 16 13 4 w := (restride_four 16 13 w).symm

/-- A field fits in a place of 13 bits or more. -/
theorem field_lt {b : Nat} (hb : 13 ≤ b) (w : Nat) : w % 2 ^ 13 < 2 ^ b :=
  (Nat.mod_lt w (Nat.two_pow_pos 13)).trans_le (Nat.pow_le_pow_right Nat.two_pos hb)

theorem restride_succ_mod {b : Nat} (hb : 13 ≤ b) (a n w : Nat) : restride a b (n + 1) w % 2 ^ b = w % 2 ^ 13 := by
  rw [restride_succ, Nat.add_mul_mod_self_left, Nat.mod_eq_of_lt (field_lt hb w)]

theorem restride_succ_div {b : Nat} (hb : 13 ≤ b) (a n w : Nat) :
    restride a b (n + 1) w / 2 ^ b = restride a b n (w / 2 ^ a) := by
  rw [restride_succ, Nat.add_mul_div_left _ _ (Nat.two_pow_pos b), Nat.div_eq_of_lt (field_lt hb w), Nat.zero_add]

theorem div_two_pow_mul_succ (w k i : Nat) : w / 2 ^ (k * (i + 1)) = w / 2 ^ k / 2 ^ (k * i) := by
  rw [Nat.div_div_eq_div_mul, ← Nat.pow_add, Nat.mul_succ, Nat.add_comm]

theorem restride_lt {b : Nat} (hb : 13 ≤ b) (a n w : Nat) : restride a b n w < 2 ^ (b * n) := by
  induction n generalizing w with
  | zero => exact Nat.two_pow_pos _
  | succ n ih =>
    rw [Nat.mul_succ, Nat.pow_add, ← Nat.div_lt_iff_lt_mul (Nat.two_pow_pos b), restride_succ_div hb]
    exact ih _

/-- Place i of the result holds field i, and zeros above it. -/
theorem restride_place {b : Nat} (hb : 13 ≤ b) (a : Nat) {n i : Nat} (hi : i < n) (w : Nat) :
    restride a b n w / 2 ^ (b * i) % 2 ^ b = w / 2 ^ (a * i) % 2 ^ 13 := by
  induction i generalizing n w with
  | zero =>
    obtain ⟨n, rfl⟩ := Nat.exists_eq_succ_of_ne_zero hi.ne'
    simpa using restride_succ_mod hb a n w
  | succ i ih =>
    obtain ⟨n, rfl⟩ := Nat.exists_eq_succ_of_ne_zero (Nat.ne_zero_of_lt hi)
    rw [div_two_pow_mul_succ, div_two_pow_mul_succ, restride_succ_div hb, ih (Nat.lt_of_succ_lt_succ hi)]

/-- A stride in between drops nothing, as long as the fields fit in it. -/
theorem restride_restride {b : Nat} (hb : 13 ≤ b) (a c n w : Nat) :
    restride b c n (restride a b n w) = restride a c n w := by
  induction n generalizing w with
  | zero => rfl
  | succ n ih =>
    have hfield : restride a b (n + 1) w % 2 ^ 13 = w % 2 ^ 13 := by
      rw [← Nat.mod_mod_of_dvd _ (Nat.pow_dvd_pow 2 hb), restride_succ_mod hb, Nat.mod_mod]
    rw [restride_succ, hfield, restride_succ_div hb, ih, restride_succ]

/-- Fields with no gap between them are the low bits of the number. -/
theorem restride_packed (n w : Nat) : restride 13 13 n w = w % 2 ^ (13 * n) := by
  induction n generalizing w with
  | zero => exact (Nat.mod_one w).symm
  | succ n ih => rw [restride_succ, ih, ← Nat.mod_mul, ← Nat.pow_add, Nat.mul_succ, Nat.add_comm 13]

/-! ### The mask (R132, R133) -/

/-- The mask of `n` lanes: 13 ones in every 16 bits. -/
def lanesMask : Nat → Nat
  | 0 => 0
  | n + 1 => 2 ^ 13 - 1 + 2 ^ 16 * lanesMask n

theorem lanesMask_succ (n : Nat) : lanesMask (n + 1) = 2 ^ 13 - 1 + 2 ^ 16 * lanesMask n := rfl

theorem lanesMask_succ_mod (n : Nat) : lanesMask (n + 1) % 2 ^ 16 = 2 ^ 13 - 1 := by
  rw [lanesMask_succ, Nat.add_mul_mod_self_left, Nat.mod_eq_of_lt (by decide)]

theorem lanesMask_succ_div (n : Nat) : lanesMask (n + 1) / 2 ^ 16 = lanesMask n := by
  rw [lanesMask_succ, Nat.add_mul_div_left _ _ (by decide), Nat.div_eq_of_lt (by decide), Nat.zero_add]

theorem laneMask_eq : laneMask = lanesMask 4 := rfl

/-- Fields that stay in their lanes are what the mask keeps. -/
theorem restride_lanes (n w : Nat) : restride 16 16 n w = w &&& lanesMask n := by
  induction n generalizing w with
  | zero => exact (Nat.and_zero w).symm
  | succ n ih =>
    have hlow : (w &&& lanesMask (n + 1)) % 2 ^ 16 = w % 2 ^ 13 := by
      rw [Nat.and_mod_two_pow, lanesMask_succ_mod, Nat.and_two_pow_sub_one_eq_mod, Nat.mod_mod_of_dvd _ (by decide)]
    have hhigh : (w &&& lanesMask (n + 1)) / 2 ^ 16 = w / 2 ^ 16 &&& lanesMask n := by
      rw [Nat.and_div_two_pow, lanesMask_succ_div]
    rw [restride_succ, ih, ← hlow, ← hhigh, Nat.mod_add_div]

/-- Settles O41: each composition takes the fields back to the stride they came from. -/
theorem splitAndMergeAreInverse : Obligations.SplitAndMergeAreInverse := by
  intro w _
  rw [split_eq_restride, merge_eq_restride, merge_eq_restride, split_eq_restride, restride_restride (by decide),
    restride_restride (by decide), restride_packed, restride_lanes, ← laneMask_eq]
  exact ⟨rfl, rfl⟩

/-! ### Parallel deposit and extract (R132) -/

theorem depositBits_set (n w m : Nat) : depositBits (n + 1) w (2 * m + 1) = w % 2 + 2 * depositBits n (w / 2) m := by
  rw [depositBits, if_pos (by omega), show (2 * m + 1) / 2 = m by omega]

theorem depositBits_clear (n w m : Nat) : depositBits (n + 1) w (2 * m) = 2 * depositBits n w m := by
  rw [depositBits, if_neg (by omega), show 2 * m / 2 = m by omega]

theorem extractBits_set (n w m : Nat) : extractBits (n + 1) w (2 * m + 1) = w % 2 + 2 * extractBits n (w / 2) m := by
  rw [extractBits, if_pos (by omega), show (2 * m + 1) / 2 = m by omega]

theorem extractBits_clear (n w m : Nat) : extractBits (n + 1) w (2 * m) = extractBits n (w / 2) m := by
  rw [extractBits, if_neg (by omega), show 2 * m / 2 = m by omega]

theorem mod_two_pow_add (k w r : Nat) :
    w % 2 + 2 * (w / 2 % 2 ^ k + 2 ^ k * r) = w % 2 ^ (k + 1) + 2 ^ (k + 1) * r := by
  rw [Nat.mul_add, ← Nat.add_assoc, ← Nat.mod_mul, ← Nat.mul_assoc, ← Nat.pow_succ']

/-- The lowest of `k + 1` ones below a mask `m` comes off first. -/
theorem ones_succ (k m : Nat) : 2 ^ (k + 1) - 1 + 2 ^ (k + 1) * m = 2 * (2 ^ k - 1 + 2 ^ k * m) + 1 := by
  have hpos := Nat.two_pow_pos k
  rw [Nat.pow_succ', Nat.mul_assoc]
  omega

theorem depositBits_ones (k n w m : Nat) :
    depositBits (n + k) w (2 ^ k - 1 + 2 ^ k * m) = w % 2 ^ k + 2 ^ k * depositBits n (w / 2 ^ k) m := by
  induction k generalizing w with
  | zero => simp [Nat.mod_one]
  | succ k ih =>
    rw [ones_succ, ← Nat.add_assoc, depositBits_set, ih, mod_two_pow_add, Nat.div_div_eq_div_mul, ← Nat.pow_succ']

theorem depositBits_zeros (k n w m : Nat) : depositBits (n + k) w (2 ^ k * m) = 2 ^ k * depositBits n w m := by
  induction k with
  | zero => simp
  | succ k ih => rw [Nat.pow_succ', Nat.mul_assoc, ← Nat.add_assoc, depositBits_clear, ih, Nat.mul_assoc]

theorem extractBits_ones (k n w m : Nat) :
    extractBits (n + k) w (2 ^ k - 1 + 2 ^ k * m) = w % 2 ^ k + 2 ^ k * extractBits n (w / 2 ^ k) m := by
  induction k generalizing w with
  | zero => simp [Nat.mod_one]
  | succ k ih =>
    rw [ones_succ, ← Nat.add_assoc, extractBits_set, ih, mod_two_pow_add, Nat.div_div_eq_div_mul, ← Nat.pow_succ']

theorem extractBits_zeros (k n w m : Nat) : extractBits (n + k) w (2 ^ k * m) = extractBits n (w / 2 ^ k) m := by
  induction k generalizing w with
  | zero => simp
  | succ k ih =>
    rw [Nat.pow_succ', Nat.mul_assoc, ← Nat.add_assoc, extractBits_clear, ih, Nat.div_div_eq_div_mul]

/-- The lowest lane of the mask is 13 ones with 3 zeros above them. -/
theorem lanesMask_succ_bits (n : Nat) : lanesMask (n + 1) = 2 ^ 13 - 1 + 2 ^ 13 * (2 ^ 3 * lanesMask n) := by
  rw [lanesMask_succ, ← Nat.mul_assoc, ← Nat.pow_add]

theorem depositBits_lanes (n w : Nat) : depositBits (16 * n) w (lanesMask n) = restride 13 16 n w := by
  induction n generalizing w with
  | zero => rfl
  | succ n ih =>
    have hbits : 16 * (n + 1) = 16 * n + 3 + 13 := by omega
    rw [hbits, lanesMask_succ_bits, depositBits_ones, depositBits_zeros, ih, ← Nat.mul_assoc, ← Nat.pow_add,
      restride_succ]

theorem extractBits_lanes (n w : Nat) : extractBits (16 * n) w (lanesMask n) = restride 16 13 n w := by
  induction n generalizing w with
  | zero => rfl
  | succ n ih =>
    have hbits : 16 * (n + 1) = 16 * n + 3 + 13 := by omega
    rw [hbits, lanesMask_succ_bits, extractBits_ones, extractBits_zeros, ih, Nat.div_div_eq_div_mul, ← Nat.pow_add,
      restride_succ]

/-- Settles O42: deposit and extract go lane by lane, as `restride` does. -/
theorem depositAndExtractAreSplitAndMerge : Obligations.DepositAndExtractAreSplitAndMerge := by
  intro w _
  rw [split_eq_restride, merge_eq_restride, laneMask_eq]
  exact ⟨depositBits_lanes 4 w, extractBits_lanes 4 w⟩

/-! ### The commands (R135, R136) -/

theorem split_lt (w : Nat) : split w < 2 ^ 64 := by
  rw [split_eq_restride]
  exact restride_lt (by decide) 13 4 w

theorem merge_lt (w : Nat) : merge w < 2 ^ 52 := by
  rw [merge_eq_restride]
  exact restride_lt (by decide) 16 4 w

theorem split_lane {i : Nat} (hi : i < 4) (w : Nat) :
    split w / 2 ^ (16 * i) % 2 ^ 16 = w / 2 ^ (13 * i) % 2 ^ 13 := by
  rw [split_eq_restride, restride_place (by decide) 13 hi]

theorem merge_group {i : Nat} (hi : i < 4) (w : Nat) :
    merge w / 2 ^ (13 * i) % 2 ^ 13 = w / 2 ^ (16 * i) % 2 ^ 13 := by
  rw [merge_eq_restride, restride_place (by decide) 16 hi]

/-- Settles O29: the result is Split of OPA, which fits in RES0. -/
theorem splitSpreadsTheGroups : Obligations.SplitSpreadsTheGroups := by
  refine ⟨fun s hf => ⟨BitVec.ofNat 64 (split (opaWord s)), ?_, fun i hi => ?_⟩,
    onlyWord_of_plain (by decide) rfl rfl⟩
  · rw [exec, execSplit, guarded_auto hf, complete_eq_withResults]
    rfl
  · rw [BitVec.toNat_ofNat, Nat.mod_eq_of_lt (split_lt _), split_lane hi, opaWord]

/-- Settles O30: the result is Merge of OPA, which fits in RES0. -/
theorem mergePacksTheLanes : Obligations.MergePacksTheLanes := by
  refine ⟨fun s hf => ⟨BitVec.ofNat 64 (merge (opaWord s)), ?_, ?_⟩, onlyWord_of_plain (by decide) rfl rfl⟩
  · rw [exec, execMerge, guarded_auto hf, complete_eq_withResults]
    rfl
  · have hlt := merge_lt (opaWord s)
    rw [BitVec.toNat_ofNat, Nat.mod_eq_of_lt (by omega)]
    exact ⟨hlt, fun i hi => merge_group hi _⟩

end Sys2Proof.Machine

/-! PROOFS. The block codec: the groups and pair values of a block (spec/42_block_codec.md R140 to R142), the block
round trip (R147), and units and streams as their blocks in order (R143, spec/44_streaming.md R183, R184). -/

namespace Sys2Proof.Machine

/-! ### Parts of a byte list and fields of a number (R7, R8) -/

/-- Leaving out `n` bytes shifts their bits out of the number. -/
theorem le_drop (bs : List Byte) (n : Nat) : le (bs.drop n) = le bs / 2 ^ (8 * n) := by
  refine Nat.eq_of_testBit_eq fun k => ?_
  have hdiv : (k + 8 * n) / 8 = n + k / 8 := by omega
  have hmod : (k + 8 * n) % 8 = k % 8 := by omega
  rw [Nat.testBit_div_two_pow, testBit_le, testBit_le, hdiv, hmod, List.getD_eq_getElem?_getD, List.getElem?_drop,
    ← List.getD_eq_getElem?_getD]

/-- Keeping `n` bytes keeps their bits of the number. -/
theorem le_take (bs : List Byte) (n : Nat) : le (bs.take n) = le bs % 2 ^ (8 * n) := by
  refine Nat.eq_of_testBit_eq fun k => ?_
  have hbyte : k < 8 * n ↔ k / 8 < n := by omega
  rw [Nat.testBit_mod_two_pow, testBit_le, testBit_le, List.getD_eq_getElem?_getD, List.getElem?_take]
  by_cases hk : k / 8 < n <;> simp [hbyte, hk]

/-- The number of a byte list has 8 bits for each byte. -/
theorem le_lt (bs : List Byte) : le bs < 2 ^ (8 * bs.length) := by
  rw [← leBytes_le bs, le_leBytes, leBytes_length]
  exact Nat.mod_lt _ (Nat.two_pow_pos _)

/-- A field of `n` bits from bit `lo` up. -/
theorem slice_eq (v : Nat) {hi lo n : Nat} (h : hi + 1 - lo = n) : slice v hi lo = v / 2 ^ lo % 2 ^ n := by
  rw [slice, Nat.shiftRight_eq_div_pow, h]

/-- A field of 13 bits is the same in a number cut off above it. -/
theorem field_of_mod {a m : Nat} (h : a + 13 ≤ m) (v : Nat) : v % 2 ^ m / 2 ^ a % 2 ^ 13 = v / 2 ^ a % 2 ^ 13 := by
  obtain ⟨k, rfl⟩ := Nat.exists_eq_add_of_le h
  rw [Nat.add_assoc, Nat.pow_add, Nat.mod_mul_right_div_self, Nat.mod_mod_of_dvd _ (Nat.pow_dvd_pow 2 (by omega))]

theorem group_eq (bs : List Byte) (i : Nat) : group bs i = le bs / 2 ^ (13 * i) % 2 ^ 13 := slice_eq _ (by omega)

/-- Settles O43: byte 5 is stream bit 40, and 12 bits above it begins group 4. -/
theorem twoWordFormGivesTheGroups : Obligations.TwoWordFormGivesTheGroups := by
  intro bs _ i hi
  have hlane (w : Nat) {j : Nat} (hj : j < 4) : slice (split w) (16 * j + 15) (16 * j) = w / 2 ^ (13 * j) % 2 ^ 13 := by
    rw [slice_eq (n := 16) _ (by omega), split_lane hj]
  rw [twoWordLane, group_eq]
  split
  case isTrue h => rw [hlane _ h, le_take, field_of_mod (by omega)]
  case isFalse h =>
    obtain ⟨j, rfl⟩ := Nat.exists_eq_add_of_le (Nat.not_lt.mp h)
    have hbit : 8 * 5 + (12 + 13 * j) = 13 * (4 + j) := by omega
    rw [Nat.add_sub_cancel_left, hlane _ (by omega), le_take, le_drop, Nat.shiftRight_eq_div_pow,
      Nat.div_div_eq_div_mul, ← Nat.pow_add, field_of_mod (by omega), Nat.div_div_eq_div_mul, ← Nat.pow_add, hbit]

/-! ### Values packed at a stride (R140, R142) -/

/-- The values `f 0` to `f (n - 1)` put at stride `b`. -/
def packed (b : Nat) (f : Nat → Nat) (n : Nat) : Nat := ((List.range n).map fun i => f i * 2 ^ (b * i)).sum

/-- The highest value comes on top of the others. -/
theorem packed_succ (b : Nat) (f : Nat → Nat) (n : Nat) : packed b f (n + 1) = packed b f n + f n * 2 ^ (b * n) := by
  simp [packed, List.range_succ]

/-- Packing goes on above the first `m` values. -/
theorem packed_add (b : Nat) (f : Nat → Nat) (m n : Nat) :
    packed b f (m + n) = packed b f m + 2 ^ (b * m) * packed b (fun i => f (m + i)) n := by
  induction n with
  | zero => rfl
  | succ n ih =>
    rw [← Nat.add_assoc, packed_succ, packed_succ, ih, Nat.mul_add b, Nat.pow_add]
    ring

/-- The lowest value comes first, and the others one place above it. -/
theorem packed_succ_low (b : Nat) (f : Nat → Nat) (n : Nat) :
    packed b f (n + 1) = f 0 + 2 ^ b * packed b (fun i => f (i + 1)) n := by
  have hlow : packed b f 1 = f 0 := by simp [packed]
  rw [Nat.add_comm n, packed_add, hlow, Nat.mul_one]
  simp only [Nat.add_comm 1]

theorem packed_congr (b : Nat) {f g : Nat → Nat} {n : Nat} (h : ∀ i, i < n → f i = g i) :
    packed b f n = packed b g n := by
  rw [packed, packed, List.map_congr_left fun i hi => by rw [h i (List.mem_range.mp hi)]]

theorem packed_succ_mod {b : Nat} {f : Nat → Nat} (hf : ∀ i, f i < 2 ^ b) (n : Nat) :
    packed b f (n + 1) % 2 ^ b = f 0 := by
  rw [packed_succ_low, Nat.add_mul_mod_self_left, Nat.mod_eq_of_lt (hf 0)]

theorem packed_succ_div {b : Nat} {f : Nat → Nat} (hf : ∀ i, f i < 2 ^ b) (n : Nat) :
    packed b f (n + 1) / 2 ^ b = packed b (fun i => f (i + 1)) n := by
  rw [packed_succ_low, Nat.add_mul_div_left _ _ (Nat.two_pow_pos b), Nat.div_eq_of_lt (hf 0), Nat.zero_add]

theorem packed_lt {b : Nat} {f : Nat → Nat} (hf : ∀ i, f i < 2 ^ b) (n : Nat) : packed b f n < 2 ^ (b * n) := by
  induction n generalizing f with
  | zero => exact Nat.two_pow_pos _
  | succ n ih =>
    rw [Nat.mul_succ, Nat.pow_add, ← Nat.div_lt_iff_lt_mul (Nat.two_pow_pos b), packed_succ_div hf]
    exact ih fun i => hf (i + 1)

/-- Values that fit in their places can be read back. -/
theorem packed_place {b : Nat} {f : Nat → Nat} (hf : ∀ i, f i < 2 ^ b) {n i : Nat} (hi : i < n) :
    packed b f n / 2 ^ (b * i) % 2 ^ b = f i := by
  induction i generalizing n f with
  | zero =>
    obtain ⟨n, rfl⟩ := Nat.exists_eq_succ_of_ne_zero hi.ne'
    simpa using packed_succ_mod hf n
  | succ i ih =>
    obtain ⟨n, rfl⟩ := Nat.exists_eq_succ_of_ne_zero (Nat.ne_zero_of_lt hi)
    rw [div_two_pow_mul_succ, packed_succ_div hf, ih (fun i => hf (i + 1)) (Nat.lt_of_succ_lt_succ hi)]

/-- Changing the stride of packed values keeps the low 13 bits of each. -/
theorem restride_eq_packed (a b n w : Nat) :
    restride a b n w = packed b (fun i => w / 2 ^ (a * i) % 2 ^ 13) n := by
  induction n generalizing w with
  | zero => rfl
  | succ n ih =>
    rw [restride_succ, ih, packed_succ_low]
    simp only [div_two_pow_mul_succ, Nat.mul_zero, Nat.pow_zero, Nat.div_one]

/-- Values that do not overlap can be joined by the bitwise or. -/
theorem foldl_or_eq_packed {f : Nat → Nat} {b : Nat} (hf : ∀ i, f i < 2 ^ b) (n : Nat) :
    (List.range n).foldl (fun w i => w ||| (f i <<< (b * i))) 0 = packed b f n := by
  induction n with
  | zero => rfl
  | succ n ih =>
    rw [List.range_succ, List.foldl_append, ih, List.foldl_cons, List.foldl_nil, Nat.or_comm,
      ← Nat.shiftLeft_add_eq_or_of_lt (packed_lt hf n), Nat.shiftLeft_eq, Nat.add_comm, packed_succ]

/-! ### The symbols of a block (R140) -/

theorem toNat_remSym {v : Nat} (h : v < 8192) : (remSym v).toNat = digitSymbol (v % 91) := by
  obtain ⟨r, -, ⟨hr, hr90, hrem⟩, -⟩ := exists_pair_digits h
  rw [hrem, toNat_sym_of_digit hr90, hr]

theorem toNat_quoSym {v : Nat} (h : v < 8192) : (quoSym v).toNat = digitSymbol (v / 91) := by
  obtain ⟨-, q, -, ⟨hq, hq90, hquo⟩⟩ := exists_pair_digits h
  rw [hquo, toNat_sym_of_digit hq90, hq]

/-- In the pairs of a list of values, the pair of the value at place i stands at 2i. -/
theorem flatMap_encPair_pair (g : Nat → Nat) {l : List Nat} {i v : Nat} (h : l[i]? = some v) :
    (l.flatMap fun x => encPair (g x)).getD (2 * i) 0 = remSym (g v) ∧
      (l.flatMap fun x => encPair (g x)).getD (2 * i + 1) 0 = quoSym (g v) := by
  induction l generalizing i with
  | nil => cases h
  | cons x l ih =>
    cases i with
    | zero =>
      obtain rfl : x = v := Option.some.inj h
      exact ⟨rfl, rfl⟩
    | succ i => exact ih h

/-- Symbols 2i and 2i+1 of a block are the pair of group i. -/
theorem encBlock13_pair (bs : List Byte) {i : Nat} (hi : i < 8) :
    (encBlock13 bs).getD (2 * i) 0 = remSym (group bs i) ∧
      (encBlock13 bs).getD (2 * i + 1) 0 = quoSym (group bs i) :=
  flatMap_encPair_pair (group bs) (List.getElem?_range hi)

/-- Settles O45: the pair of group i is at 2i, remainder first. -/
theorem blockTextIsTheGroups : Obligations.BlockTextIsTheGroups := by
  refine fun bs _ => ⟨encBlock13_length bs, fun i hi => ?_⟩
  obtain ⟨hrem, hquo⟩ := encBlock13_pair bs hi
  rw [hrem, hquo, toNat_remSym (group_lt bs i), toNat_quoSym (group_lt bs i), group_eq]
  exact ⟨rfl, rfl⟩

/-! ### The bytes of a text block (R142) -/

theorem pairValue_lt (ss : List Byte) (i : Nat) : pairValue ss i < 2 ^ 13 := by
  rw [pairValue, decPair_eq]
  exact Nat.mod_lt _ (by decide)

/-- The eight pair values fill 104 bits, which are 13 bytes. -/
theorem le_decBlock16 (ss : List Byte) : le (decBlock16 ss) = packed 13 (pairValue ss) 8 := by
  rw [decBlock16, foldl_or_eq_packed (pairValue_lt ss), le_leBytes, Nat.mod_eq_of_lt (packed_lt (pairValue_lt ss) 8)]

/-- Merge of four lanes packs their low 13 bits. -/
theorem merge_packed {lane : Nat → Nat} (h : ∀ i, lane i < 2 ^ 16) :
    merge (packed 16 lane 4) = packed 13 (fun i => lane i % 8192) 4 := by
  rw [merge_eq_restride, restride_eq_packed]
  refine packed_congr 13 fun i hi => ?_
  rw [← packed_place h hi, Nat.mod_mod_of_dvd _ (by decide)]
  rfl

/-- Settles O46: a lane value fits in its lane, and lanes 4 to 7 begin at bit 52. -/
theorem blockBytesAreThePairValues : Obligations.BlockBytesAreThePairValues := by
  intro ss _ lane hlane
  have hlt (i : Nat) : lane i < 2 ^ 16 := by
    have h0 := (dig (ss.getD (2 * i) 0)).isLt
    have h1 := (dig (ss.getD (2 * i + 1) 0)).isLt
    rw [hlane]
    omega
  have hnumber : le (decBlock16 ss) = packed 13 (fun i => lane i % 8192) 8 := by
    rw [le_decBlock16]
    refine packed_congr 13 fun i _ => ?_
    rw [pairValue, decPair_eq, hlane]
  have hmerge : le (decBlock16 ss) =
      merge (packed 16 lane 4) + 2 ^ 52 * merge (packed 16 (fun i => lane (4 + i)) 4) := by
    rw [hnumber, merge_packed hlt, merge_packed fun i => hlt (4 + i)]
    exact packed_add 13 _ 4 4
  exact ⟨decBlock16_length ss, hnumber, hmerge⟩

/-! ### The block round trip (R147) -/

/-- The groups of a block, packed, are its number. -/
theorem packed_group {bs : List Byte} (h : bs.length = 13) : packed 13 (group bs) 8 = le bs := by
  have hlt := le_lt bs
  rw [h] at hlt
  calc packed 13 (group bs) 8
      = restride 13 13 8 (le bs) := by
        rw [restride_eq_packed]
        exact packed_congr 13 fun i _ => group_eq bs i
    _ = le bs := by rw [restride_packed, Nat.mod_eq_of_lt hlt]

theorem pairValue_encBlock13 (bs : List Byte) {i : Nat} (hi : i < 8) : pairValue (encBlock13 bs) i = group bs i := by
  obtain ⟨hrem, hquo⟩ := encBlock13_pair bs hi
  rw [pairValue, hrem, hquo, decPair_encoded (group_lt bs i)]

theorem group_decBlock16 (ss : List Byte) {i : Nat} (hi : i < 8) : group (decBlock16 ss) i = pairValue ss i := by
  rw [group_eq, le_decBlock16, packed_place (pairValue_lt ss) hi]

theorem decBlock16_encBlock13 {bs : List Byte} (h : bs.length = 13) : decBlock16 (encBlock13 bs) = bs := by
  have hnumber : le (decBlock16 (encBlock13 bs)) = le bs := by
    rw [le_decBlock16, packed_congr 13 fun i => pairValue_encBlock13 bs, packed_group h]
  rw [← leBytes_le (decBlock16 _), hnumber, decBlock16_length, ← h, leBytes_le]

/-- A pair of bytes is the pair of its value exactly when it is canonical (R105, R108). -/
theorem encoded_decPair_iff (b0 b1 : Byte) :
    (remSym (decPair b0 b1).1 = b0 ∧ quoSym (decPair b0 b1).1 = b1) ↔
      inAlpha b0 = true ∧ inAlpha b1 = true ∧ (decPair b0 b1).2 ≤ 8191 := by
  constructor
  · intro ⟨hrem, hquo⟩
    have hlt : (decPair b0 b1).1 < 8192 := by
      rw [decPair_eq]
      exact Nat.mod_lt _ (by decide)
    have hmem {b : Byte} (hb : b ∈ encPair (decPair b0 b1).1) : inAlpha b = true := inAlpha_of_mem_encPair hlt hb
    have hlane : (decPair b0 b1).2 = (decPair b0 b1).1 := by
      have hpair := decPair_encoded hlt
      rw [hrem, hquo] at hpair
      exact congrArg Prod.snd hpair
    rw [encPair, hrem, hquo] at hmem
    exact ⟨hmem (by simp), hmem (by simp), by omega⟩
  · intro ⟨h0, h1, hle⟩
    rw [decPair_eq] at hle ⊢
    dsimp only at hle ⊢
    rw [Nat.mod_eq_of_lt (by omega)]
    obtain ⟨r, q, ⟨hr, -, hrem⟩, ⟨hq, -, hquo⟩⟩ := exists_pair_digits (Nat.lt_succ_of_le hle)
    have h90 := toNat_dig_le h0
    have hr' : r = dig b0 := BitVec.eq_of_toNat_eq (by omega)
    have hq' : q = dig b1 := BitVec.eq_of_toNat_eq (by omega)
    rw [hrem, hquo, hr', hq', sym_dig h0, sym_dig h1]
    exact ⟨rfl, rfl⟩

/-- Two text blocks are equal when their eight pairs are. -/
theorem eq_iff_pairs {ss ts : List Byte} (hs : ss.length = 16) (ht : ts.length = 16) :
    ss = ts ↔ ∀ i, i < 8 →
      ss.getD (2 * i) 0 = ts.getD (2 * i) 0 ∧ ss.getD (2 * i + 1) 0 = ts.getD (2 * i + 1) 0 := by
  refine ⟨fun h _ _ => h ▸ ⟨rfl, rfl⟩, fun h => List.ext_getElem (hs.trans ht.symm) fun k hk hk' => ?_⟩
  rw [← List.getD_eq_getElem ss 0 hk, ← List.getD_eq_getElem ts 0 hk']
  obtain ⟨heven, hodd⟩ := h (k / 2) (by omega)
  obtain hpos | hpos : k = 2 * (k / 2) ∨ k = 2 * (k / 2) + 1 := by omega
  · rwa [← hpos] at heven
  · rwa [← hpos] at hodd

/-- Decoding then encoding a text block works pair by pair. -/
theorem encBlock13_decBlock16_iff {ss : List Byte} (h : ss.length = 16) :
    encBlock13 (decBlock16 ss) = ss ↔ ∀ i, i < 8 →
      inAlpha (ss.getD (2 * i) 0) = true ∧ inAlpha (ss.getD (2 * i + 1) 0) = true ∧
      (decPair (ss.getD (2 * i) 0) (ss.getD (2 * i + 1) 0)).2 ≤ 8191 := by
  rw [eq_iff_pairs (encBlock13_length _) h]
  refine forall₂_congr fun i hi => ?_
  obtain ⟨hrem, hquo⟩ := encBlock13_pair (decBlock16 ss) hi
  rw [hrem, hquo, group_decBlock16 ss hi]
  exact encoded_decPair_iff _ _

/-! ### Blocks in order (R143, R183, R184) -/

/-- `f` over `k` blocks of `a` bytes, in order: what `encBlocks` and `decBlocks` have in common. -/
def mapBlocks (f : List Byte → List Byte) (a : Nat) : Nat → List Byte → List Byte
  | 0, _ => []
  | k + 1, xs => f (xs.take a) ++ mapBlocks f a k (xs.drop a)

theorem mapBlocks_succ (f : List Byte → List Byte) (a k : Nat) (xs : List Byte) :
    mapBlocks f a (k + 1) xs = f (xs.take a) ++ mapBlocks f a k (xs.drop a) := rfl

theorem encBlocks_eq_mapBlocks (k : Nat) (bs : List Byte) : encBlocks k bs = mapBlocks encBlock13 13 k bs := by
  induction k generalizing bs with
  | zero => rfl
  | succ k ih => rw [encBlocks, ih, mapBlocks_succ]

theorem decBlocks_eq_mapBlocks (k : Nat) (ss : List Byte) : decBlocks k ss = mapBlocks decBlock16 16 k ss := by
  induction k generalizing ss with
  | zero => rfl
  | succ k ih => rw [decBlocks, ih, mapBlocks_succ]

/-- Block j of the output, whatever follows the blocks, is the output of block j of the input. -/
theorem mapBlocks_block {f : List Byte → List Byte} {a b : Nat} (hf : ∀ xs, (f xs).length = b) {k j : Nat}
    (hj : j < k) (xs rest : List Byte) :
    ((mapBlocks f a k xs ++ rest).drop (b * j)).take b = f ((xs.drop (a * j)).take a) := by
  induction j generalizing k xs with
  | zero =>
    obtain ⟨k, rfl⟩ := Nat.exists_eq_succ_of_ne_zero hj.ne'
    rw [mapBlocks_succ, List.append_assoc, Nat.mul_zero, Nat.mul_zero, List.drop_zero, List.drop_zero,
      List.take_left' (hf _)]
  | succ j ih =>
    obtain ⟨k, rfl⟩ := Nat.exists_eq_succ_of_ne_zero (Nat.ne_zero_of_lt hj)
    rw [mapBlocks_succ, List.append_assoc, Nat.mul_succ, Nat.mul_succ, Nat.add_comm (b * j), Nat.add_comm (a * j),
      ← List.drop_drop, List.drop_left' (hf _), ih (Nat.lt_of_succ_lt_succ hj), List.drop_drop]

/-- A round trip of every block is a round trip of the whole blocks. -/
theorem mapBlocks_mapBlocks {f g : List Byte → List Byte} {a b : Nat} (hf : ∀ xs, (f xs).length = b)
    (hg : ∀ xs, xs.length = a → g (f xs) = xs) {k : Nat} {xs : List Byte} (hxs : xs.length = a * k) :
    mapBlocks g b k (mapBlocks f a k xs) = xs := by
  induction k generalizing xs with
  | zero => exact (List.length_eq_zero_iff.mp hxs).symm
  | succ k ih =>
    rw [Nat.mul_succ] at hxs
    have htake : (xs.take a).length = a := by rw [List.length_take]; omega
    have hdrop : (xs.drop a).length = a * k := by rw [List.length_drop]; omega
    rw [mapBlocks_succ, mapBlocks_succ, List.take_left' (hf _), List.drop_left' (hf _), hg _ htake, ih hdrop,
      List.take_append_drop]

theorem decBlocks_encBlocks {k : Nat} {bs : List Byte} (h : bs.length = 13 * k) :
    decBlocks k (encBlocks k bs) = bs := by
  rw [encBlocks_eq_mapBlocks, decBlocks_eq_mapBlocks,
    mapBlocks_mapBlocks encBlock13_length (fun _ => decBlock16_encBlock13) h]

/-- Settles O47: the groups come back as pair values, and a canonical pair comes back from its value. -/
theorem blocksRoundTrip : Obligations.BlocksRoundTrip :=
  ⟨fun _ => decBlock16_encBlock13, fun _ _ => decBlocks_encBlocks, fun _ => encBlock13_decBlock16_iff⟩

theorem encBlocks_block {k j : Nat} (hj : j < k) (bs rest : List Byte) :
    ((encBlocks k bs ++ rest).drop (16 * j)).take 16 = encBlock13 ((bs.drop (13 * j)).take 13) := by
  rw [encBlocks_eq_mapBlocks, mapBlocks_block encBlock13_length hj]

theorem decBlocks_block {k j : Nat} (hj : j < k) (ss rest : List Byte) :
    ((decBlocks k ss ++ rest).drop (13 * j)).take 13 = decBlock16 ((ss.drop (16 * j)).take 16) := by
  rw [decBlocks_eq_mapBlocks, mapBlocks_block decBlock16_length hj]

/-- Settles O60: a unit is its blocks with nothing after them, a stream is its blocks with the tail after them. -/
theorem unitsAndStreamsAreTheBlocksInOrder : Obligations.UnitsAndStreamsAreTheBlocksInOrder := by
  refine ⟨fun u => ?codes, fun u bs _ => ⟨encUnit_length u bs, fun j hj => ?_⟩,
    fun u ss _ => ⟨decUnit_length u ss, fun j hj => ?_⟩,
    fun f bs => ⟨fun j hj => encBlocks_block hj bs _, List.drop_left' (encBlocks_length _ _)⟩,
    fun f ss _ => ⟨fun j hj => decBlocks_block hj ss _, List.drop_left' (decBlocks_length _ _)⟩⟩
  case codes => cases u <;> rfl
  · rw [encUnit, ← encBlocks_block hj bs [], List.append_nil]
  · rw [decUnit, ← decBlocks_block hj ss [], List.append_nil]

end Sys2Proof.Machine

/-! PROOFS. The remainder handler: the tail tables (spec/43_remainder.md R160 to R162), the symbols and bytes of a tail
(R163, R164), what the encoder drops (R167) and the tail round trip (R168). -/

namespace Sys2Proof.Machine

/-! ### The tables against the bit layout (R160 to R162) -/

/-- A tail takes two symbols for each whole group and 0, 1 or 2 for the bits left over (R162). -/
theorem encT_eq {n : Nat} (h : n ≤ 12) :
    encT n = 2 * (8 * n / 13) + if 8 * n % 13 = 0 then 0 else if 8 * n % 13 ≤ 6 then 1 else 2 := by
  interval_cases n <;> rfl

/-- Settles O48: the formula entry by entry; DEC_T undoes ENC_T and misses 1, 6 and 11. -/
theorem tailTablesAreConsistent : Obligations.TailTablesAreConsistent := by
  refine ⟨fun n => encT_eq, fun n => decT_encT, fun m hm => ?_⟩
  rw [decT_eq_none hm]
  simp

/-- When both symbols of group i are dropped, a tail of `n` bytes has no bits in it. -/
theorem bits_le_of_encT_le_even {n i : Nat} (hn : n ≤ 12) (h : encT n ≤ 2 * i) : 8 * n ≤ 13 * i := by
  rw [encT_eq hn] at h
  split_ifs at h <;> omega

/-- When the second symbol of group i is dropped, a tail of `n` bytes has at most 6 bits in it. -/
theorem bits_le_of_encT_le_odd {n i : Nat} (hn : n ≤ 12) (h : encT n ≤ 2 * i + 1) : 8 * n ≤ 13 * i + 6 := by
  rw [encT_eq hn] at h
  split_ifs at h <;> omega

/-! ### Symbols and padding by position (R140, R163, R164) -/

/-- The digit at position j of the text of a number: of group j div 2 the remainder by 91 (j even) or the quotient
(j odd). -/
def textDigit (v j : Nat) : Nat :=
  if j % 2 = 0 then v / 2 ^ (13 * (j / 2)) % 2 ^ 13 % 91 else v / 2 ^ (13 * (j / 2)) % 2 ^ 13 / 91

/-- Symbol j of a block is that of digit j of its number. -/
theorem toNat_encBlock13_getD (bs : List Byte) {j : Nat} (hj : j < 16) :
    ((encBlock13 bs).getD j 0).toNat = digitSymbol (textDigit (le bs) j) := by
  obtain ⟨hrem, hquo⟩ := encBlock13_pair bs (i := j / 2) (by omega)
  obtain heven | hodd := Nat.mod_two_eq_zero_or_one j
  · have hpos : 2 * (j / 2) = j := by omega
    rw [hpos] at hrem
    rw [hrem, toNat_remSym (group_lt bs _), group_eq, textDigit, if_pos heven]
  · have hpos : 2 * (j / 2) + 1 = j := by omega
    rw [hpos] at hquo
    rw [hquo, toNat_quoSym (group_lt bs _), group_eq, textDigit, if_neg (by omega)]

theorem le_replicate_zero (k : Nat) : le (List.replicate k 0) = 0 := by
  induction k with
  | zero => rfl
  | succ k ih => rw [List.replicate_succ, le_cons, ih]; rfl

/-- Zero bytes at the end leave the number of a byte list as it is. -/
theorem le_append_zeros (bs : List Byte) (k : Nat) : le (bs ++ List.replicate k 0) = le bs := by
  induction bs with
  | nil => exact le_replicate_zero k
  | cons b bs ih => rw [List.cons_append, le_cons, le_cons, ih]

/-- Within the padding, a padded list reads as the list does with the pad as its default. -/
theorem getD_append_replicate {bs : List Byte} {n k : Nat} (b c : Byte) (h : k < bs.length + n) :
    (bs ++ List.replicate n b).getD k c = bs.getD k b := by
  obtain hk | hk := Nat.lt_or_ge k bs.length
  · rw [List.getD_append _ _ _ _ hk, List.getD_eq_getElem _ _ hk, List.getD_eq_getElem _ _ hk]
  · rw [List.getD_append_right _ _ _ _ hk, List.getD_replicate _ (by omega), List.getD_eq_default _ _ hk]

/-! ### What the encoder drops and the round trip (R167, R168) -/

/-- A dropped digit is 0: its group has no bits of the tail, or at most 6 of them and the digit is its quotient. -/
theorem textDigit_eq_zero {n v j : Nat} (hn : n ≤ 12) (hv : v < 2 ^ (8 * n)) (hj : encT n ≤ j) :
    textDigit v j = 0 := by
  obtain heven | hodd := Nat.mod_two_eq_zero_or_one j
  · have hbits : 8 * n ≤ 13 * (j / 2) := bits_le_of_encT_le_even hn (by omega)
    have hgroup : v / 2 ^ (13 * (j / 2)) = 0 :=
      Nat.div_eq_of_lt (hv.trans_le (Nat.pow_le_pow_right Nat.two_pos hbits))
    rw [textDigit, if_pos heven, hgroup, Nat.zero_mod, Nat.zero_mod]
  · have hbits : 8 * n ≤ 13 * (j / 2) + 6 := bits_le_of_encT_le_odd hn (by omega)
    have hgroup : v / 2 ^ (13 * (j / 2)) < 2 ^ 6 := by
      rw [Nat.div_lt_iff_lt_mul (Nat.two_pow_pos _), ← Nat.pow_add, Nat.add_comm 6]
      exact hv.trans_le (Nat.pow_le_pow_right Nat.two_pos hbits)
    rw [textDigit, if_neg (by omega)]
    exact Nat.div_eq_of_lt ((Nat.mod_le _ _).trans_lt (hgroup.trans (by decide)))

/-- Every symbol of the padded block from ENC_T on is the symbol of digit 0. -/
theorem encBlock13_padded_getD {bs : List Byte} (h : bs.length ≤ 12) {j : Nat} (hlo : encT bs.length ≤ j)
    (hj : j < 16) :
    (encBlock13 (bs ++ List.replicate (13 - bs.length) 0)).getD j 0 = 0x23 := by
  refine BitVec.eq_of_toNat_eq ?_
  rw [toNat_encBlock13_getD _ hj, le_append_zeros, textDigit_eq_zero h (le_lt bs) hlo]
  rfl

/-- Settles O49: each dropped symbol is that of a digit 0. -/
theorem droppedTailSymbolsAreZeroDigits : Obligations.DroppedTailSymbolsAreZeroDigits := by
  intro bs h
  refine List.ext_getElem (by simp) fun k hk _ => ?_
  rw [List.length_drop, encBlock13_length] at hk
  rw [List.getElem_drop, List.getElem_replicate, ← List.getD_eq_getElem _ 0,
    encBlock13_padded_getD h (Nat.le_add_right _ _) (by omega)]

/-- A text of ENC_T[d] symbols decodes to the first d bytes of its padded block. -/
theorem decTail_eq_take {ss : List Byte} {d : Nat} (hd : d ≤ 12) (h : encT d = ss.length) :
    decTail ss = (decBlock16 (ss ++ List.replicate (16 - ss.length) 0x23)).take d := by
  rw [decTail, ← h, decT_encT hd, Option.getD_some]

/-- The padding of the decoder restores the symbols that the encoder dropped. -/
theorem encTail_padded {bs : List Byte} (h : bs.length ≤ 12) :
    encTail bs ++ List.replicate (16 - encT bs.length) 0x23 =
      encBlock13 (bs ++ List.replicate (13 - bs.length) 0) := by
  rw [encTail, ← droppedTailSymbolsAreZeroDigits bs h, List.take_append_drop]

/-- Settles O50: the padded text is the padded block's, which decodes to the tail and its zeros. -/
theorem tailsRoundTrip : Obligations.TailsRoundTrip := by
  refine fun bs h => ⟨encTail_length bs, ?_⟩
  have hpadded : (bs ++ List.replicate (13 - bs.length) 0).length = 13 := by
    rw [List.length_append, List.length_replicate]
    omega
  rw [decTail_eq_take h (encTail_length bs).symm, encTail_length, encTail_padded h, decBlock16_encBlock13 hpadded,
    List.take_left' rfl]

/-! ### The symbols and the bytes of a tail (R163, R164) -/

/-- Symbol j of an encoded tail is that of digit j of its number. -/
theorem toNat_encTail_getD (bs : List Byte) {j : Nat} (hj : j < encT bs.length) :
    ((encTail bs).getD j 0).toNat = digitSymbol (textDigit (le bs) j) := by
  have hle := encT_le bs.length
  rw [encTail, List.getD_eq_getElem?_getD, List.getElem?_take_of_lt hj, ← List.getD_eq_getElem?_getD,
    toNat_encBlock13_getD _ (by omega), le_append_zeros]

/-- The pair values of the padded text, with the pad standing for each missing symbol. -/
theorem pairValue_padded (ss : List Byte) {i : Nat} (hi : i < 8) :
    pairValue (ss ++ List.replicate (16 - ss.length) 0x23) i =
      ((dig (ss.getD (2 * i) 0x23)).toNat + 91 * (dig (ss.getD (2 * i + 1) 0x23)).toNat) % 8192 := by
  rw [pairValue, decPair_eq, getD_append_replicate _ _ (by omega), getD_append_replicate _ _ (by omega)]

/-- Settles O59: the encoder keeps the first symbols of the padded block, the decoder the low bits of the padded text's
number. -/
theorem tailsAreTheGroupsOfThePaddedBlock : Obligations.TailsAreTheGroupsOfThePaddedBlock := by
  refine ⟨fun bs _ => ⟨encTail_length bs, fun j => toNat_encTail_getD bs⟩, fun ss d hd h lane hlane => ?_⟩
  have hlength : (decTail ss).length = d := by rw [decTail_length, ← h, decT_encT hd, Option.getD_some]
  have hnumber : le (decTail ss) = packed 13 (fun i => lane i % 8192) 8 % 2 ^ (8 * d) := by
    rw [decTail_eq_take hd h, le_take, le_decBlock16]
    refine congrArg (· % 2 ^ (8 * d)) (packed_congr 13 fun i hi => ?_)
    rw [pairValue_padded ss hi, hlane]
  exact ⟨hlength, hnumber⟩

end Sys2Proof.Machine

/-! PROOFS. The streaming layer: the two length functions (spec/44_streaming.md R180 to R182, R193), streams cut and
joined (R183, R184, R192), the length queries and the validator (R187 to R189), and the round trip through the machine
(R185, R186). -/

namespace Sys2Proof.Machine

/-! ### The length functions (R180 to R182, R193) -/

/-- ENC_T undoes DEC_T (R161). -/
theorem encT_of_decT {m d : Nat} (hm : m < 16) (h : decT m = some d) : encT d = m := by
  interval_cases m <;> cases h <;> rfl

/-- A decoded length is that of the whole text blocks and that of a tail whose text is the rest. -/
theorem decLen_eq_some {t n : Nat} (h : decLen t = some n) :
    ∃ d, n = 13 * (t / 16) + d ∧ d ≤ 12 ∧ encT d = t % 16 := by
  obtain ⟨d, hd, rfl⟩ := Option.map_eq_some_iff.mp h
  exact ⟨d, rfl, decT_le hd, encT_of_decT (Nat.mod_lt _ (by decide)) hd⟩

/-- No tail reaches a whole block, so quotient and remainder by 13 separate the blocks from the tail (R180, R181). -/
theorem encLen_of_decLen {t n : Nat} (h : decLen t = some n) : encLen n = t := by
  obtain ⟨d, rfl, hd, htail⟩ := decLen_eq_some h
  have hdiv : (13 * (t / 16) + d) / 13 = t / 16 := by omega
  have hmod : (13 * (t / 16) + d) % 13 = d := by omega
  rw [encLen, hdiv, hmod, htail, Nat.div_add_mod]

/-- A text length has a decoded length exactly when it is not 1, 6 or 11 modulo 16 (R181). -/
theorem exists_decLen_iff {t : Nat} : (∃ n, decLen t = some n) ↔ t % 16 ∉ [1, 6, 11] := by
  rw [← Option.ne_none_iff_exists', ne_eq, decLen_eq_none]
  simp

/-- Settles O51: both tables are undone on the remainder, and an encoded length has a decoded one. -/
theorem lengthsRoundTrip : Obligations.LengthsRoundTrip :=
  ⟨fun n => ⟨decLen_encLen n, exists_decLen_iff.mp ⟨n, decLen_encLen n⟩⟩, fun _ _ => encLen_of_decLen⟩

/-- The next length after 1744830463 = 13 * 134217727 + 12 has one block more, whose text starts at 2^31 (R182). -/
theorem encLen_le_iff {n : Nat} : encLen n ≤ 2 ^ 31 - 1 ↔ n ≤ 1744830463 := by
  refine ⟨fun h => ?_, fun h => Nat.le_sub_one_of_lt (encLen_lt h)⟩
  rw [encLen] at h
  omega

/-- Settles O52: the bound on decoded lengths is the bound on encoded ones, a text length being the encoded length of
what it decodes to. -/
theorem maximumLengthIsTheLargest : Obligations.MaximumLengthIsTheLargest :=
  ⟨fun _ => encLen_le_iff, rfl, rfl, fun _ _ ht h => encLen_le_iff.mp ((encLen_of_decLen h).trans_le ht),
    decLen_encLen 1744830463, rfl⟩

/-! ### Streams cut and joined (R183, R184, R192) -/

/-- What `k` blocks give depends on the first `a * k` bytes only. -/
theorem mapBlocks_take (f : List Byte → List Byte) {a k n : Nat} (h : a * k ≤ n) (xs : List Byte) :
    mapBlocks f a k (xs.take n) = mapBlocks f a k xs := by
  induction k generalizing n xs with
  | zero => rfl
  | succ k ih =>
    rw [Nat.mul_succ] at h
    rw [mapBlocks_succ, mapBlocks_succ, List.take_take, Nat.min_eq_left (by omega), List.drop_take, ih (by omega)]

/-- Some blocks and then some more are all of them. -/
theorem mapBlocks_add (f : List Byte → List Byte) (a j k : Nat) (xs : List Byte) :
    mapBlocks f a j xs ++ mapBlocks f a k (xs.drop (a * j)) = mapBlocks f a (j + k) xs := by
  induction j generalizing xs with
  | zero => rw [Nat.zero_add]; rfl
  | succ j ih =>
    rw [Nat.succ_add, mapBlocks_succ, mapBlocks_succ, List.append_assoc, ← ih, List.drop_drop, Nat.mul_succ,
      Nat.add_comm a]

/-- `f` over the whole blocks of `a` bytes and then `g` over the rest: what the final calls of `encodeStream` and
`decodeStream` have in common. -/
def blocksThenTail (f g : List Byte → List Byte) (a : Nat) (xs : List Byte) : List Byte :=
  mapBlocks f a (xs.length / a) xs ++ g (xs.drop (a * (xs.length / a)))

theorem encodeStream_final (bs : List Byte) : encodeStream true bs = blocksThenTail encBlock13 encTail 13 bs := by
  rw [encodeStream, encBlocks_eq_mapBlocks]
  rfl

theorem decodeStream_final (ss : List Byte) : decodeStream true ss = blocksThenTail decBlock16 decTail 16 ss := by
  rw [decodeStream, decBlocks_eq_mapBlocks]
  rfl

theorem encodeStream_nonfinal (bs : List Byte) :
    encodeStream false bs = mapBlocks encBlock13 13 (bs.length / 13) bs := by
  rw [← encBlocks_eq_mapBlocks]
  exact List.append_nil _

theorem decodeStream_nonfinal (ss : List Byte) :
    decodeStream false ss = mapBlocks decBlock16 16 (ss.length / 16) ss := by
  rw [← decBlocks_eq_mapBlocks]
  exact List.append_nil _

/-- The whole blocks of the first `k` bytes, followed by what the carry and the remaining bytes give, are what all bytes
give (R192). -/
theorem blocksThenTail_split (f g : List Byte → List Byte) {a : Nat} {xs : List Byte} {k : Nat}
    (hk : k ≤ xs.length) :
    mapBlocks f a ((xs.take k).length / a) (xs.take k) ++ blocksThenTail f g a (xs.drop (a * (k / a))) =
      blocksThenTail f g a xs := by
  have htake : (xs.take k).length = k := List.length_take_of_le hk
  have hcarry : a * (k / a) ≤ k := Nat.mul_div_le k a
  have hblocks : k / a + (xs.drop (a * (k / a))).length / a = xs.length / a := by
    rw [List.length_drop, Nat.sub_mul_div, Nat.add_sub_cancel' (Nat.div_le_div_right hk)]
  rw [blocksThenTail, blocksThenTail, htake, mapBlocks_take f hcarry, ← List.append_assoc, mapBlocks_add, hblocks,
    List.drop_drop, ← Nat.mul_add, hblocks]

/-- Settles O53: blocks of 13 bytes with `encTail`, blocks of 16 symbols with `decTail`. -/
theorem streamingEqualsOneCall : Obligations.StreamingEqualsOneCall := by
  refine ⟨fun bs k hk => ?_, fun ss k hk => ?_⟩
  · rw [encodeStream_nonfinal, encodeStream_final, encodeStream_final, blocksThenTail_split _ _ hk]
  · rw [decodeStream_nonfinal, decodeStream_final, decodeStream_final, blocksThenTail_split _ _ hk]

/-! ### The round trip of a stream (R193) -/

theorem encodeStream_final_length (bs : List Byte) : (encodeStream true bs).length = encLen bs.length :=
  encodeStream_length true bs

/-- Decoding `k` encoded blocks, whatever follows them, gives the first `k` blocks of the input back. -/
theorem decBlocks_encBlocks_append (k : Nat) {bs : List Byte} (h : 13 * k ≤ bs.length) (rest : List Byte) :
    decBlocks k (encBlocks k bs ++ rest) = bs.take (13 * k) := by
  have htake : (bs.take (13 * k)).length = 13 * k := List.length_take_of_le h
  calc decBlocks k (encBlocks k bs ++ rest)
      = decBlocks k ((encBlocks k bs ++ rest).take (16 * k)) := by
        rw [decBlocks_eq_mapBlocks, decBlocks_eq_mapBlocks, mapBlocks_take _ le_rfl]
    _ = decBlocks k (encBlocks k (bs.take (13 * k))) := by
        rw [List.take_left' (encBlocks_length _ _), encBlocks_eq_mapBlocks, encBlocks_eq_mapBlocks,
          mapBlocks_take _ le_rfl]
    _ = bs.take (13 * k) := decBlocks_encBlocks htake

/-- The text has as many whole blocks as the input, and its tail is the encoded tail. -/
theorem decodeStream_encodeStream (bs : List Byte) : decodeStream true (encodeStream true bs) = bs := by
  have htail : (bs.drop (13 * (bs.length / 13))).length ≤ 12 := by rw [List.length_drop]; omega
  obtain ⟨-, hround⟩ := tailsRoundTrip _ htail
  have hblocks : (encodeStream true bs).length / 16 = bs.length / 13 := by
    have hle := encT_le (bs.length % 13)
    rw [encodeStream_final_length, encLen]
    omega
  rw [decodeStream, hblocks, encodeStream, decBlocks_encBlocks_append _ (Nat.mul_div_le _ _),
    List.drop_left' (encBlocks_length _ _)]
  simp only [if_true, hround, List.take_append_drop]

/-- Settles O54: the round trip, and the computed length, which decodes to the input's. -/
theorem streamsRoundTrip : Obligations.StreamsRoundTrip := fun bs =>
  ⟨decodeStream_encodeStream bs, encodeStream_final_length bs, encodeStream_final_length bs ▸ decLen_encLen bs.length⟩

/-! ### The length queries and the validator (R187 to R189) -/

theorem opaLength_eq (s : State) : opaLength s = (s.regs.opa.setWidth 32).toInt := by
  have hlow : s.regs.opa.extractLsb' 0 32 = s.regs.opa.setWidth 32 := BitVec.eq_of_toNat_eq (by simp)
  rw [opaLength, hlow]

/-- Settles O31: the two checks of the length, then the encoded length. -/
theorem enclenGivesTheLength : Obligations.EnclenGivesTheLength := by
  refine ⟨fun s n hf hn => ?_, onlyWord_of_plain (by decide) rfl rfl⟩
  rw [← opaLength_eq] at hn
  subst hn
  rw [exec, execEnclen, guarded_auto hf]
  refine ⟨fun hneg => ?_, fun hpos hmax => ?_, fun hpos hmax => ?_⟩
  · rw [if_pos hneg]; rfl
  · rw [if_neg (by omega), if_pos hmax]; rfl
  · rw [if_neg (by omega), if_neg (by omega)]; rfl

/-- Settles O32: the sign check, then the decoded length, which exists for every other rest than 1, 6 and 11. -/
theorem declenGivesTheLength : Obligations.DeclenGivesTheLength := by
  refine ⟨fun s n hf hn => ?_, onlyWord_of_plain (by decide) rfl rfl⟩
  rw [← opaLength_eq] at hn
  subst hn
  rw [exec, execDeclen, guarded_auto hf]
  refine ⟨fun hneg => ?_, fun hpos hbad => ?_, fun hpos hgood => ?_⟩
  · rw [if_pos hneg]; rfl
  · have hnone : decLen (opaLength s).toNat = none := decLen_eq_none.mpr (by simpa using hbad)
    rw [if_neg (by omega), hnone]; rfl
  · obtain ⟨n, hsome⟩ := exists_decLen_iff.mpr hgood
    obtain ⟨d, rfl, hd, htail⟩ := decLen_eq_some hsome
    exact ⟨d, hd, htail, by rw [if_neg (by omega), hsome]; rfl⟩

/-- The test of VALIDATE is a legal length and alphabet bytes only (R104, R189). -/
theorem validText_iff {ss : List Byte} : validText ss = true ↔ ss.length % 16 ∉ [1, 6, 11] ∧
    ∀ b ∈ ss, (0x23 ≤ b.toNat ∧ b.toNat ≤ 0x7D ∧ b.toNat ≠ 0x5C) ∨ b.toNat = 0x7E := by
  rw [validText, Bool.and_eq_true, Option.isSome_iff_exists, exists_decLen_iff, List.all_eq_true]
  simp only [inAlpha_iff]

/-- Settles O33: the sign check, the check of the one region, then the test. -/
theorem validateChecksTheText : Obligations.ValidateChecksTheText := by
  refine ⟨fun s n hf hn => ?_, onlyWord_of_plain (by decide) rfl rfl⟩
  subst hn
  rw [exec, execValidate, guarded_auto hf, checkRegions_noWrite]
  refine ⟨fun hneg => ?_, fun hpos hrange => ?_, fun hpos hrange => ?_⟩
  · rw [srcLength, if_pos hneg]; rfl
  · rw [srcLength, if_neg (by omega), spaceSize, if_pos hrange]; rfl
  · rw [srcLength, if_neg (by omega), spaceSize, if_neg (by omega)]
    refine ⟨_, rfl, ?_⟩
    have htest := validText_iff (ss := sourceBytes s s.regs.srcLen.toInt.toNat)
    rw [sourceBytes_length] at htest
    rw [← htest, ← sourceBytes]
    by_cases hvalid : validText (sourceBytes s s.regs.srcLen.toInt.toNat) = true
    · rw [if_pos hvalid]
      exact ⟨.inr rfl, iff_of_true rfl hvalid⟩
    · rw [if_neg hvalid]
      exact ⟨.inl rfl, iff_of_false (by decide) hvalid⟩

/-! ### The round trip through the machine (R185, R186) -/

/-- A command that ends without an error leaves FATAL clear if it found it clear (R213). -/
theorem Ending.fatal_of_completed {i : Instr} {s t : State} (h : Ending i s t) (hf : s.regs.fatal = false)
    (he : t.regs.err = 0) : t.regs.fatal = false := by
  cases h with
  | ignored | short | error | done | wrote => exact hf
  | fatal => cases errNumber_eq_zero (e := .unsupportedOperation).mp he

/-- What a completed final ENCODE leaves: WRITTEN, and in a canonical memory the text in the write region. -/
theorem encode_final_completed {s t : State} {te : Tier} (h : exec (.encode true te) s = .next t) (hm : s.mem.wf)
    (hf : s.regs.fatal = false) (he : t.regs.err = 0) :
    t.regs.written.toNat = encLen s.regs.srcLen.toNat ∧
      memRead t.mem s.regs.dstAddr.toNat (encLen s.regs.srcLen.toNat) =
        encodeStream true (sourceBytes s s.regs.srcLen.toNat) := by
  have hend := exec_ending h
  obtain ⟨hwritten, -⟩ := hend.completed hf he rfl
  exact ⟨hwritten, hend.memRead_output hf he rfl hm⟩

/-- What a completed final DECODE of a valid text length leaves: the counts, and in a canonical memory the bytes in the
write region. -/
theorem decode_final_completed {s t : State} {td : Tier} (h : exec (.decode true td) s = .next t) (hm : s.mem.wf)
    (hf : s.regs.fatal = false) (he : t.regs.err = 0) {n : Nat} (hn : decLen s.regs.srcLen.toNat = some n) :
    t.regs.written.toNat = n ∧ t.regs.consumed.toNat = s.regs.srcLen.toNat ∧
      memRead t.mem s.regs.dstAddr.toNat n = decodeStream true (sourceBytes s s.regs.srcLen.toNat) := by
  have hend := exec_ending h
  have hout : outputLen (.decode true td) s = n := by simp [outputLen, hn]
  obtain ⟨hwritten, hconsumed, -⟩ := hend.completed hf he rfl
  exact ⟨hwritten.trans hout, hconsumed, hout ▸ hend.memRead_output hf he rfl hm⟩

/-- Settles O56: the decoder reads the text that the encoder wrote, and its length decodes to the encoder's SRC_LEN. -/
theorem encodeThenDecodeRestoresTheInput : Obligations.EncodeThenDecodeRestoresTheInput := by
  intro s t t' te td d c hm hf henc het hdec het'
  have hend := exec_ending henc
  have hdst : t.regs.dstAddr = s.regs.dstAddr := by rw [hend.frame.1]
  obtain ⟨hlen, htext⟩ := encode_final_completed henc hm hf het
  have hdecLen : decLen t.regs.written.toNat = some s.regs.srcLen.toNat := hlen ▸ decLen_encLen _
  obtain ⟨hwritten, hconsumed, hbytes⟩ :=
    decode_final_completed hdec (hend.mem_wf hm) (hend.fatal_of_completed hf het) het' hdecLen
  refine ⟨BitVec.eq_of_toNat_eq hwritten, BitVec.eq_of_toNat_eq hconsumed, ?_⟩
  calc memRead t'.mem d.toNat s.regs.srcLen.toNat
      = decodeStream true (memRead t.mem t.regs.dstAddr.toNat t.regs.written.toNat) := hbytes
    _ = decodeStream true (encodeStream true (sourceBytes s s.regs.srcLen.toNat)) := by rw [hdst, hlen, htext]
    _ = sourceBytes s s.regs.srcLen.toNat := decodeStream_encodeStream _

end Sys2Proof.Machine

/-! PROOFS. FATAL and the units step by step, and what an executed command leaves in the result bank
(spec/60_exceptions.md R212 to R219, R224, spec/70_reset_and_hazards.md R240). -/

namespace Sys2Proof.Machine

/-! ### Commands under FATAL (R219) -/

/-- Under FATAL the guard lets nothing through, whatever the rule (R84). -/
theorem guarded_of_fatal {legal : Bool} {t : Tier} {rule : State → State} {s : State} (hf : s.regs.fatal = true) :
    guarded legal t rule s = s := if_pos hf

/-- A command run under FATAL changes nothing. -/
theorem exec_of_fatal {s : State} (hf : s.regs.fatal = true) (i : Instr) : exec i s = .next s := by
  obtain ⟨rule, he⟩ := exec_eq_guarded i s
  rw [he, guarded_of_fatal hf]

/-- A command word under FATAL goes to CMD and does nothing else. -/
theorem executeWord_of_fatal {s : State} (hf : s.regs.fatal = true) (w : Word) :
    executeWord w s = .next (storeCmd w s) := by
  cases hd : decode w with
  | ok i => rw [executeWord_of_decode hd, exec_of_fatal (s := storeCmd w s) hf]
  | error e => rw [executeWord_of_illegal hd, guarded_of_fatal (s := storeCmd w s) hf]

/-- Settles O7: legal or not, every command stands behind the guard. -/
theorem fatalCommandsAreIgnored : Obligations.FatalCommandsAreIgnored :=
  fun _ hf => ⟨executeWord_of_fatal hf, exec_of_fatal hf⟩

/-! ### What a move does to the register files (R213, R224) -/

/-- From `s` to `t` no parameter and no unit out of focus changes, and FATAL of the unit in focus stays set unless that
unit is reset. -/
structure ActsOnFocus (reset : Bool) (s t : State) : Prop where
  cfg : t.cfg = s.cfg
  below : t.below = s.below
  above : t.above = s.above
  fatal : reset = false → s.regs.fatal = true → t.regs.fatal = true

/-- A command word acts on the unit in focus. -/
theorem executeWord_actsOnFocus {w : Word} {s t : State} (h : executeWord w s = .next t) : ActsOnFocus false s t := by
  obtain ⟨i, hend⟩ := executeWord_ends h
  obtain ⟨hcfg, hbelow, habove⟩ := hend.units
  refine ⟨hcfg, hbelow, habove, fun _ hf => ?_⟩
  rw [executeWord_of_fatal hf] at h
  cases h
  exact hf

/-- So does a host write to a register. -/
theorem hostRegWrite_actsOnFocus {i : Fin 16} {v : Dword} {s t : State} (h : hostRegWrite i v s = .next t) :
    ActsOnFocus false s t := by
  unfold hostRegWrite at h
  split at h
  · exact executeWord_actsOnFocus h
  · cases h
    exact ⟨rfl, rfl, rfl, fun _ hf => (regWrite_fatal s.cfg s.regs i v).trans hf⟩

/-- So does reset while a command is held, which may clear FATAL (R242). -/
theorem resetDuringCommand_actsOnFocus {w : Word} {s t : State} (h : resetDuringCommand w s = .next t) :
    ActsOnFocus true s t := by
  obtain ⟨s', hs'⟩ := executeWord_next w s
  rw [resetDuringCommand, hs'] at h
  cases h
  exact ⟨rfl, rfl, rfl, nofun⟩

/-- A command with touches that answers a next state is the command followed by the touches. -/
theorem contendedCommand_eq_next {w : Word} {touches : List Touch} {s t : State}
    (h : contendedCommand w touches s = .next t) :
    ∃ s', executeWord w s = .next s' ∧ t = afterTouches touches s s' := by
  obtain ⟨s', hs'⟩ := executeWord_next w s
  unfold contendedCommand at h
  rw [hs'] at h
  split at h
  · cases h
  · cases h
    exact ⟨s', hs', rfl⟩

/-- Neither the disturbance nor the touches change a parameter. -/
theorem afterTouches_cfg (touches : List Touch) (s s' : State) : (afterTouches touches s s').cfg = s'.cfg := by
  rw [afterTouches, touches_eq, beforeTouches]
  split <;> rfl

/-- A command with touches acts on the unit in focus as the command does. -/
theorem contendedCommand_actsOnFocus {w : Word} {touches : List Touch} {s t : State}
    (h : contendedCommand w touches s = .next t) : ActsOnFocus false s t := by
  obtain ⟨s', hs', rfl⟩ := contendedCommand_eq_next h
  obtain ⟨hcfg, hbelow, habove, hfatal⟩ := executeWord_actsOnFocus hs'
  obtain ⟨hregs, hbelow', habove'⟩ := afterTouches_registers (touches := touches) (s := s) (s' := s')
  exact ⟨(afterTouches_cfg touches s s').trans hcfg, hbelow'.trans hbelow, habove'.trans habove, hregs ▸ hfatal⟩

/-- From `s` to `t` the move `m` keeps the parameters and every register file, but for the one of the unit it addresses,
whose FATAL stays set unless `m` resets that unit. -/
def ChangesOnlyAddressed (m : HostMove) (s t : State) : Prop :=
  t.cfg = s.cfg ∧ (unitFiles t = unitFiles s ∨
    ∃ (u : Nat) (r r' : Regs), moveUnit m = some u ∧ (unitFiles s)[u]? = some r ∧
      unitFiles t = (unitFiles s).set u r' ∧ (resetsUnit u m = false → r.fatal = true → r'.fatal = true))

/-- The unit in focus is at its own number. -/
theorem getElem?_currentUnit (s : State) : (unitFiles s)[currentUnit s]? = some s.regs := by
  simp [unitFiles, currentUnit]

/-- Another register file at that number leaves the units below and above. -/
theorem set_currentUnit (s : State) (r : Regs) : (unitFiles s).set (currentUnit s) r = s.below ++ r :: s.above := by
  simp [unitFiles, currentUnit]

/-- A move that acts on the unit it addresses, once that is in focus, changes no other. -/
theorem onUnit_changesOnlyAddressed {m : HostMove} {u : Nat} {f : State → Host.Outcome State Fault Refusal}
    {s t : State} (hm : moveUnit m = some u) (hf : ∀ s1, f s1 = .next t → ActsOnFocus (resetsUnit u m) s1 t)
    (h : onUnit u f s = .next t) : ChangesOnlyAddressed m s t := by
  unfold onUnit at h
  split at h
  · cases h
  · next s1 hu =>
    obtain ⟨hcfg, hbelow, habove, hfatal⟩ := hf s1 h
    obtain ⟨-, hfiles, rfl, -⟩ := focusUnit_eq_some hu
    refine ⟨hcfg.trans (focusUnit_cfg hu), .inr ⟨_, s1.regs, t.regs, hm, ?_, ?_, hfatal⟩⟩
    · rw [← hfiles, getElem?_currentUnit]
    · rw [← hfiles, set_currentUnit, unitFiles, hbelow, habove]

/-- A host write to the memory changes no register. -/
theorem hostMemWrite_eq_next {addr : Nat} {bytes : List Byte} {s t : State}
    (h : hostMemWrite addr bytes s = .next t) : t = { s with mem := memWrite s.mem addr bytes } := by
  unfold hostMemWrite at h
  split at h
  · cases h
  · cases h; rfl

/-- Nor does a host read of the memory. -/
theorem hostMemRead_eq_next {addr n : Nat} {s t : State} (h : hostMemRead addr n s = .next t) :
    t = { s with replies := (memRead s.mem addr n).map fun b => b.setWidth 64 } := by
  unfold hostMemRead at h
  split at h
  · cases h
  · cases h; rfl

/-- Every move changes at most the register file of the unit it addresses. -/
theorem performMove_changesOnlyAddressed {m : HostMove} {s t : State} (h : performMove m s = .next t) :
    ChangesOnlyAddressed m s t := by
  cases m with
  | regWrite u i v => exact onUnit_changesOnlyAddressed rfl (fun _ => hostRegWrite_actsOnFocus) h
  | regRead u i =>
    exact onUnit_changesOnlyAddressed rfl (fun _ h1 => by cases h1; exact ⟨rfl, rfl, rfl, fun _ => id⟩) h
  | memRead addr n => rw [hostMemRead_eq_next h]; exact ⟨rfl, .inl rfl⟩
  | memWrite addr bytes => rw [hostMemWrite_eq_next h]; exact ⟨rfl, .inl rfl⟩
  | reset u =>
    refine onUnit_changesOnlyAddressed rfl (fun _ h1 => ?_) h
    cases h1
    exact ⟨rfl, rfl, rfl, by simp [resetsUnit]⟩
  | cmdReset u w =>
    have hr : resetsUnit u (.cmdReset u w) = true := beq_self_eq_true u
    exact onUnit_changesOnlyAddressed rfl (fun _ h1 => hr ▸ resetDuringCommand_actsOnFocus h1) h
  | cmdContended u w touches => exact onUnit_changesOnlyAddressed rfl (fun _ => contendedCommand_actsOnFocus) h

/-- A step is idle and changes nothing, or it takes the next move, which changes at most the unit it addresses. -/
theorem step_eq_next {s t : State} (h : step s = .next t) :
    (s.pending = [] ∧ t = s) ∨ ∃ m rest, s.pending = m :: rest ∧ ChangesOnlyAddressed m s t := by
  cases hp : s.pending with
  | nil =>
    rw [step, nextMove, hp] at h
    cases h
    exact .inl ⟨rfl, rfl⟩
  | cons m rest =>
    rw [step_of_pending hp] at h
    exact .inr ⟨m, rest, rfl, performMove_changesOnlyAddressed (s := { s with pending := rest, replies := [] }) h⟩

/-- Settles O13: a register file that changes is that of the addressed unit, and there only a reset clears FATAL. -/
theorem fatalIsClearedOnlyByReset : Obligations.FatalIsClearedOnlyByReset := by
  intro s t k r r' h hr hr' hset hclear
  have hne : (unitFiles t)[k]? ≠ (unitFiles s)[k]? := by
    rw [hr, hr']
    rintro ⟨⟩
    exact absurd (hset.symm.trans hclear) nofun
  rcases step_eq_next h with ⟨-, rfl⟩ | ⟨m, rest, hp, -, hsame | ⟨u, q, q', -, hq, hfiles, hfatal⟩⟩
  · exact absurd rfl hne
  · exact absurd (congrArg (·[k]?) hsame) hne
  · refine ⟨m, rest, hp, ?_⟩
    rw [hfiles] at hne hr'
    obtain rfl : u = k := by
      by_contra hu
      exact hne (List.getElem?_set_ne hu)
    obtain ⟨hlt, -⟩ := List.getElem?_eq_some_iff.mp hq
    obtain rfl : q = r := Option.some.inj (hq.symm.trans hr)
    obtain rfl : q' = r' := Option.some.inj ((List.getElem?_set_self hlt).symm.trans hr')
    by_contra hreset
    exact absurd ((hfatal (Bool.eq_false_of_not_eq_true hreset) hset).symm.trans hclear) nofun

/-- Settles O17: a step replaces at most the register file of the unit its move addresses. -/
theorem unitsShareOnlyTheMemory : Obligations.UnitsShareOnlyTheMemory := by
  intro s t h
  rcases step_eq_next h with ⟨-, rfl⟩ | ⟨m, rest, hp, hcfg, hsame | ⟨u, r, r', hu, -, hfiles, -⟩⟩
  · exact ⟨rfl, rfl, fun _ _ => rfl⟩
  · exact ⟨hcfg, congrArg _ hsame, fun k _ => congrArg (·[k]?) hsame⟩
  · refine ⟨hcfg, by rw [hfiles, List.length_set], fun k hk => ?_⟩
    have hne : u ≠ k := fun huk => hk m rest hp (huk ▸ hu)
    rw [hfiles, List.getElem?_set_ne hne]

/-! ### The result bank of an executed command (R214) -/

/-- The guard of a command that is not ignored forgets the bank when the command's rule does. -/
theorem guarded_withBank {legal : Bool} {tier : Tier} {rule : State → State} {s : State} (hf : s.regs.fatal = false)
    {e : BitVec 4} {a : Dword} {b c x q : Word} (hrule : rule (withBank s e a b c x q) = rule s) :
    guarded legal tier rule (withBank s e a b c x q) = guarded legal tier rule s := by
  unfold guarded
  rw [withBank_fatal, withBank_cfg, hrule, hf]
  rfl

/-- A command that is not ignored reads no register of the bank and overwrites all of them: with another bank each rule
makes the same tests and has the same ends. -/
theorem exec_withBank (i : Instr) {s : State} (hf : s.regs.fatal = false) (e : BitVec 4) (a : Dword) (b c x q : Word) :
    exec i (withBank s e a b c x q) = exec i s := by
  cases i <;> exact congrArg Host.Outcome.next (guarded_withBank hf rfl)

/-- Nor does a command word, legal or not. -/
theorem executeWord_withBank (w : Word) {s : State} (hf : s.regs.fatal = false) (e : BitVec 4) (a : Dword)
    (b c x q : Word) : executeWord w (withBank s e a b c x q) = executeWord w s := by
  cases hd : decode w with
  | ok i =>
    rw [executeWord_of_decode hd, executeWord_of_decode hd]
    exact exec_withBank i (s := storeCmd w s) hf e a b c x q
  | error ill =>
    rw [executeWord_of_illegal_of_not_fatal hd hf,
      executeWord_of_illegal_of_not_fatal (s := withBank s e a b c x q) hd hf]
    rfl

/-- A command that is not ignored completes, or ends in an error with zero results (R215, R216). -/
theorem Ending.results {i : Instr} {s t : State} (h : Ending i s t) (hf : s.regs.fatal = false) :
    t.regs.err = 0 ∨ (t.regs.res0 = 0 ∧ t.regs.res1 = 0 ∧ t.regs.consumed = 0 ∧ t.regs.written = 0) := by
  cases h with
  | ignored hf' => rw [hf] at hf'; cases hf'
  | short | error | fatal => exact .inr ⟨rfl, rfl, rfl, rfl⟩
  | done | wrote => exact .inl rfl

/-- However a command ends, the operand registers stay. -/
theorem Ending.operands {i : Instr} {s t : State} (h : Ending i s t) :
    t.regs.srcAddr = s.regs.srcAddr ∧ t.regs.srcLen = s.regs.srcLen ∧ t.regs.dstAddr = s.regs.dstAddr ∧
      t.regs.dstCap = s.regs.dstCap ∧ t.regs.opa = s.regs.opa := by
  rw [h.frame.1]
  exact ⟨rfl, rfl, rfl, rfl, rfl⟩

/-- Settles O18, by the ways a command can end. -/
theorem resultBankIsRewritten : Obligations.ResultBankIsRewritten := by
  intro w s hf
  obtain ⟨t, ht⟩ := executeWord_next w s
  obtain ⟨i, hend⟩ := executeWord_ends ht
  exact ⟨executeWord_withBank w hf, t, ht, hend.results (s := storeCmd w s) hf, hend.operands⟩

/-! ### REQUIRED (R33, R215, R216) -/

/-- REQUIRED is the output length after DEST_TOO_SHORT, WRITTEN after success and 0 after any other error. -/
theorem Ending.required {i : Instr} {s t : State} (h : Ending i s t) (hf : s.regs.fatal = false) :
    t.regs.required = if t.regs.err = 1 then BitVec.ofNat 32 (outputLen i s)
      else if t.regs.err = 0 then t.regs.written else 0 := by
  cases h with
  | ignored hf' => rw [hf] at hf'; cases hf'
  | short | fatal | done | wrote => rfl
  | error _ e h0 h1 =>
    rw [raise_err, if_neg (mt errNumber_eq_one.mp h1), if_neg (mt errNumber_eq_zero.mp h0)]
    rfl

/-- Settles O23: the error by the checks of each rule, in their order, and REQUIRED by the ways a command can end. -/
theorem errorsFollowThePriority : Obligations.ErrorsFollowThePriority := by
  refine ⟨fun i s hf => exec_of_fatal hf i, fun w e s hf hd => ?_, fun i s hf => ?_⟩
  · exact ⟨_, executeWord_of_illegal_of_not_fatal hd hf, rfl, rfl⟩
  · obtain ⟨t, ht⟩ := exec_next i s
    have herr : t.regs.err = errNumber (firstError i s) := exec_err hf ht
    refine ⟨t, ht, herr, ?_⟩
    simp only [← errNumber_eq_one, ← errNumber_eq_zero, ← herr]
    exact (exec_ending ht).required hf

end Sys2Proof.Machine

/-! PROOFS. Reset while a CMD write is held (spec/70_reset_and_hazards.md R242). -/

namespace Sys2Proof.Machine

/-- The abandoned command leaves free bytes in its write region, and the unit is reset. -/
theorem resetDuringCommand_eq (w : Word) (s : State) :
    resetDuringCommand w s = .next (resetUnit (scramble s.regs.dstAddr.toNat (writeRegionLen w s) s)) := by
  obtain ⟨s', hs'⟩ := executeWord_next w s
  rw [resetDuringCommand, hs', ← (executeWord_counts hs').1]

/-- Settles O15: the write region of the abandoned command is scrambled and nothing else of the memory is. -/
theorem resetAbandonsTheHeldCommand : Obligations.ResetAbandonsTheHeldCommand := by
  intro s s1 u w rest hp hu
  obtain ⟨-, -, -, he⟩ := focusUnit_eq_some hu
  have hmem : s1.mem = s.mem := by rw [he]
  have hfresh : s1.fresh = s.fresh := by rw [he]
  rw [← hmem, ← hfresh, step_onUnit hp rfl hu, resetDuringCommand_eq]
  exact ⟨_, rfl, rfl, rfl, rfl, fun _ => memByte_scramble_outside _, fun hm _ => memByte_scramble_inside hm⟩

end Sys2Proof.Machine
